-- ==== Sys2Proof/Word.lean ====
section
/-! DEFINITION. The widths of the block's values (00_scope.md R2, R5, R6, R9; 30_encoding.md R48, R50). All values
are unsigned. -/

namespace Sys2Proof

/-- A command word, and the accumulator (R2): WORD_W = 16 bits. -/
abbrev Word := BitVec 16

/-- A microsecond timestamp or interval (R6, R7): TIME_W = 32 bits. -/
abbrev Time := BitVec 32

/-- The bit counter (R9): CNT_W = 5 bits. -/
abbrev Count := BitVec 5

/-- A slot index (R5): IDX_W = 7 bits, so no value outside 0..127 can be formed. -/
abbrev Index := BitVec 7

/-- The top-level request word (R48): `setup`, `edge`, `pop`, `now`, from the most significant bit down. -/
abbrev Req := BitVec 35

/-- The sub-block's request word (R50): `init`, `push`, `pop`, `value`, from the most significant bit down. -/
abbrev RbReq := BitVec 19

end Sys2Proof
end

