-- ==== Sys2Proof/Config.lean ====
section
/-! DEFINITION. What is fixed for the block (00_scope.md section 4) and the one value the spec leaves free. -/

namespace Sys2Proof.Config

/-- R4: the number C of slots of `buf`. -/
def capacity : Nat := 128

/-- R3: the number of data symbols in a command word. -/
def bitsPerWord : Nat := 16

/-- R8: T_ONE, in microseconds. -/
def tOne : Nat := 1200

/-- R8: T_RESET, in microseconds. -/
def tReset : Nat := 2400

/-- FREE VALUE (log 2). What a slot that no push has written since power-on holds: R17 gives it no specified value, and
93_implementation_defined.md U2 asks for any 16-bit value. `powerOn` names the power-on contents as a whole (a field of
State that nothing changes), `slot` the slot. It has no body, so no proof can see a value of it. -/
opaque powerOnWord (powerOn slot : Nat) : Word

end Sys2Proof.Config
end

