-- ==== Sys2Proof/Syntax.lean ====
section
/-! DEFINITION. The operations (30_encoding.md R42, one constructor per row of opcode_table.json), the three symbols
(R43), what an operation returns, and what the environment presents in one clock cycle (42_cycle_step.md R82). -/

namespace Sys2Proof

/-- R43: the three symbols an interval between two falling edges can encode. -/
inductive Symbol where
  | zero
  | one
  | frameReset
  deriving DecidableEq, Repr

/-- R42: the thirteen rows of the operation table. -/
inductive Instr where
  /-- RB.INIT (R57). -/
  | rbInit
  /-- RB.PUSH (R58). -/
  | rbPush (value : Word)
  /-- RB.POP (R59). -/
  | rbPop
  /-- RB.AVAILABLE (R60). -/
  | rbAvailable
  /-- RB.NOP (R86). -/
  | rbNop
  /-- SETUP (R65). -/
  | setup
  /-- EDGE (R66). -/
  | edge (now : Time)
  /-- EDGE.ZERO (R68): an EDGE whose interval classifies as ZERO. -/
  | edgeZero (now : Time)
  /-- EDGE.ONE (R69): an EDGE whose interval classifies as ONE. -/
  | edgeOne (now : Time)
  /-- EDGE.FRAME_RESET (R70): an EDGE whose interval classifies as FRAME_RESET. -/
  | edgeFrameReset (now : Time)
  /-- AVAILABLE (R72). -/
  | available
  /-- POP (R73). -/
  | pop
  /-- NOP (R85). -/
  | nop
  deriving DecidableEq, Repr

/-- R52: what an operation hands to its caller: the bit of AVAILABLE and RB.AVAILABLE, the word of POP and RB.POP. -/
inductive Result where
  | bit (b : Bool)
  | word (w : Word)
  deriving DecidableEq, Repr

/-- What the environment presents in one clock cycle: the input pins (R82), and whether the consumer samples the
continuous output `available` in this cycle (R55: AVAILABLE is an idle request word "with the `available` output
sampled"; log 6). -/
inductive Cycle where
  /-- A cycle of IRDEC: `rst` and `req[34:0]` (R48). -/
  | top (rst sample : Bool) (req : Req)
  /-- A cycle of the RingBuffer sub-block driven alone: `rst` and `rb_req[18:0]` (R50, R86). -/
  | ringBuffer (rst sample : Bool) (rbReq : RbReq)
  deriving DecidableEq, Repr

end Sys2Proof
end

