-- ==== Sys2Proof/WellFormed.lean ====
section
/-! DEFINITION. Operands are fixed-width bit vectors, so no operand can be ill-formed (R53). What can be is the use of an
operation: the three cases of EDGE have no request word of their own (opcode_table.json: "same request encoding"), and a
clock cycle performs only certain short sequences of operations (42_cycle_step.md R83, R86, R87). -/

namespace Sys2Proof

/-- The operation can be requested as such: all but the symbol cases of EDGE, which the block selects itself (R66). -/
def Instr.requestable : Instr → Bool
  | .rbInit => true
  | .rbPush _ => true
  | .rbPop => true
  | .rbAvailable => true
  | .rbNop => true
  | .setup => true
  | .edge _ => true
  | .edgeZero _ => false
  | .edgeOne _ => false
  | .edgeFrameReset _ => false
  | .available => true
  | .pop => true
  | .nop => true

/-- R87: the sequences of state-changing operations one cycle of IRDEC can perform. -/
def topCommands : List Instr → Bool
  | [.setup] => true
  | [.pop] => true
  | [.edge _] => true
  | [.pop, .edge _] => true
  | _ => false

/-- R86: the same for the RingBuffer sub-block. -/
def ringCommands : List Instr → Bool
  | [.rbInit] => true
  | [.rbPop] => true
  | [.rbPush _] => true
  | [.rbPop, .rbPush _] => true
  | _ => false

/-- The sequences of operations that are one clock cycle's: an idle cycle, or a sampled output, or commands with or
without a sampled output before them (R84: the output shows the state at the start of the cycle). -/
def wellFormedCycle : List Instr → Bool
  | [.nop] => true
  | [.rbNop] => true
  | [.available] => true
  | [.rbAvailable] => true
  | .available :: ops => topCommands ops
  | .rbAvailable :: ops => ringCommands ops
  | ops => topCommands ops || ringCommands ops

end Sys2Proof
end

