-- ==== Sys2Proof/Decode.lean ====
section
/-! DEFINITION. Decoding and encoding of request words (30_encoding.md sections 3 and 4). A cycle's pins decode to the
LIST of operations the cycle performs, in order (42_cycle_step.md R87), because one request word can select POP and EDGE
together. Every request word is legal (R53); a number that is no request word at all is rejected by name. -/

namespace Sys2Proof

/-! ### Fields -/

/-- R48: bit 34. -/
def reqSetup (req : Req) : Bool := req.getLsbD 34
/-- R48: bit 33. -/
def reqEdge (req : Req) : Bool := req.getLsbD 33
/-- R48: bit 32. -/
def reqPop (req : Req) : Bool := req.getLsbD 32
/-- R48, R51: bits 31:0, taken as they stand. -/
def reqNow (req : Req) : Time := req.extractLsb' 0 32

/-- R50: bit 18. -/
def rbReqInit (req : RbReq) : Bool := req.getLsbD 18
/-- R50: bit 17. -/
def rbReqPush (req : RbReq) : Bool := req.getLsbD 17
/-- R50: bit 16. -/
def rbReqPop (req : RbReq) : Bool := req.getLsbD 16
/-- R50, R52: bits 15:0, taken as they stand. -/
def rbReqValue (req : RbReq) : Word := req.extractLsb' 0 16

/-! ### Request words to operations -/

/-- R48 and the order of R83: SETUP alone, else POP and then EDGE. No command bit: no operation (NOP). -/
def decodeReq (req : Req) : List Instr :=
  if reqSetup req then [.setup]
  else (if reqPop req then [.pop] else []) ++ (if reqEdge req then [.edge (reqNow req)] else [])

/-- R50 and the order of R86: RB.INIT alone, else RB.POP and then RB.PUSH. No command bit: no operation (RB.NOP). -/
def decodeRbReq (req : RbReq) : List Instr :=
  if rbReqInit req then [.rbInit]
  else (if rbReqPop req then [.rbPop] else []) ++ (if rbReqPush req then [.rbPush (rbReqValue req)] else [])

/-- The operations of one cycle: the sampled output first, since it shows the state at the start of the cycle (R84), then
the commands; a cycle with neither is the idle operation. -/
def cycleOps (sample : Bool) (sampled idle : Instr) (commands : List Instr) : List Instr :=
  match sample, commands with
  | true, ops => sampled :: ops
  | false, [] => [idle]
  | false, op :: ops => op :: ops

/-- What a cycle's pins ask for. `rst` performs SETUP (R104), in the sub-block RB.INIT (R86), and drops every request of
the cycle (R83). -/
def decodeCycle : Cycle → List Instr
  | .top rst sample req => cycleOps sample .available .nop (if rst then [.setup] else decodeReq req)
  | .ringBuffer rst sample req => cycleOps sample .rbAvailable .rbNop (if rst then [.rbInit] else decodeRbReq req)

/-! ### The symbol cases of EDGE -/

/-- R43: the symbol of an interval; a total function of the interval alone (R44), both lower bounds inclusive (R45). -/
def classify (elapsed : Time) : Symbol :=
  if elapsed.toNat < Config.tOne then .zero
  else if elapsed.toNat < Config.tReset then .one
  else .frameReset

/-- R67: the interval since the previous edge, modulo 2^32. -/
def elapsedSince (lastEdgeTime now : Time) : Time := now - lastEdgeTime

/-- The case of EDGE that a given symbol selects (R42, R66). -/
def edgeCaseOf (sym : Symbol) (now : Time) : Instr :=
  match sym with
  | .zero => .edgeZero now
  | .one => .edgeOne now
  | .frameReset => .edgeFrameReset now

/-- The second half of decoding an EDGE, which needs the state: "the case is selected by classify((now -
last_edge_time) mod 2^32)" (opcode_table.json, row EDGE). -/
def resolveEdge (lastEdgeTime now : Time) : Instr := edgeCaseOf (classify (elapsedSince lastEdgeTime now)) now

/-! ### Numbers to request words -/

/-- Why a number is no request word. -/
inductive DecodeError where
  /-- It has a bit above bit 34 of `req` (R48). -/
  | notAReq
  /-- It has a bit above bit 18 of `rb_req` (R50). -/
  | notARbReq
  deriving DecidableEq, Repr

/-- The cycle that presents a word of the operation table, `nbits` being the table's width of the row in whole bytes
(log 13): no bits at all is the continuous output (R48: "needs no request"), up to 24 bits is the 19-bit `rb_req`, more is
the 35-bit `req`. -/
def tableCycle (nbits w : Nat) : Except DecodeError Cycle :=
  if nbits = 0 then
    if w = 0 then .ok (.top false true 0) else .error .notAReq
  else if nbits ≤ 24 then
    if w < 2 ^ 19 then .ok (.ringBuffer false false (BitVec.ofNat 19 w)) else .error .notARbReq
  else
    if w < 2 ^ 35 then .ok (.top false false (BitVec.ofNat 35 w)) else .error .notAReq

/-- The one instruction a table word asks for. A word that selects two operations is not one instruction, and the case
rows of EDGE have EDGE's words, so those words give `edge` (log 13, log 9). -/
def decodeTableWord (nbits w : Nat) : Option Instr :=
  match tableCycle nbits w with
  | .ok c =>
    match decodeCycle c with
    | [i] => some i
    | _ => none
  | .error _ => none

/-! ### Operations to request words -/

/-- R48: the three command bits over the timestamp. -/
def reqWord (setup edge pop : Bool) (now : Time) : Req :=
  (if setup then 0x400000000 else 0) ||| (if edge then 0x200000000 else 0) |||
    (if pop then 0x100000000 else 0) ||| now.setWidth 35

/-- R50: the three command bits over the value. -/
def rbReqWord (init push pop : Bool) (value : Word) : RbReq :=
  (if init then 0x40000 else 0) ||| (if push then 0x20000 else 0) |||
    (if pop then 0x10000 else 0) ||| value.setWidth 19

/-- The timestamp an operation carries, 0 where it carries none (a don't-care field, R53). -/
def Instr.nowField : Instr → Time
  | .edge now => now
  | .edgeZero now => now
  | .edgeOne now => now
  | .edgeFrameReset now => now
  | _ => 0

/-- The value an operation carries, 0 where it carries none (a don't-care field, R53). -/
def Instr.valueField : Instr → Word
  | .rbPush v => v
  | _ => 0

/-- The operation is EDGE or one of its cases: bit 33 of `req` (R48). -/
def Instr.setsEdge : Instr → Bool
  | .edge _ => true
  | .edgeZero _ => true
  | .edgeOne _ => true
  | .edgeFrameReset _ => true
  | _ => false

/-- The operation is RB.PUSH: bit 17 of `rb_req` (R50). -/
def Instr.setsPush : Instr → Bool
  | .rbPush _ => true
  | _ => false

/-- The operation is one of the RingBuffer layer (R42), requested through `rb_req`. -/
def Instr.isRing : Instr → Bool
  | .rbInit => true
  | .rbPush _ => true
  | .rbPop => true
  | .rbAvailable => true
  | .rbNop => true
  | _ => false

/-- The cycle that performs a well-formed sequence of operations: the command bits are the operations present, the operand
is that of the last one (EDGE and RB.PUSH stand last, R83, R86). -/
def encodeCycle (ops : List Instr) : Cycle :=
  let last := ops.getLastD .nop
  if ops.any Instr.isRing then
    .ringBuffer false (ops.contains .rbAvailable)
      (rbReqWord (ops.contains .rbInit) (ops.any Instr.setsPush) (ops.contains .rbPop) last.valueField)
  else
    .top false (ops.contains .available)
      (reqWord (ops.contains .setup) (ops.any Instr.setsEdge) (ops.contains .pop) last.nowField)

/-- R55: one operation presented in a cycle of its own. -/
def encode (i : Instr) : Cycle := encodeCycle [i]

end Sys2Proof
end

