-- ==== Sys2Proof/Machine/State.lean ====
section
/-! DEFINITION. The block's state (10_state.md R11), as plain data, and the state after reset (R27). -/

namespace Sys2Proof.Machine

/-- The array `buf` (R17, R28): the slots that a push has written since power-on, as (slot, word) pairs with strictly
rising slots. The unit is the 16-bit word, since there is no byte-addressable storage and no byte order (R29; log 1). A slot
that is not listed has not been written (log 2). -/
abbrev Memory := List (Nat × Word)

/-- R11: the six components of the block, then three fields of the model's own. -/
structure State where
  /-- R12: `last_edge_time`. -/
  lastEdgeTime : Time
  /-- R13: `in_progress_word`. -/
  inProgressWord : Word
  /-- R14: `bits_accumulated`. -/
  bitsAccumulated : Count
  /-- R15: `head`, the write index. -/
  head : Index
  /-- R16: `tail`, the read index. -/
  tail : Index
  /-- R17: `buf[0..127]`. -/
  buf : Memory
  /-- The model's own (log 4): the cycles still to come, the input trace of R25 and the schedule of R36. -/
  input : List Cycle
  /-- The model's own (log 5): the values returned so far, oldest first, part of a run's result (R108). -/
  returned : List Result
  /-- The model's own (log 3): which contents the array had at power-on. Only `Config.powerOnWord` reads it. -/
  powerOn : Nat
  deriving DecidableEq, Repr

/-- What stops a run. -/
inductive Fault where
  /-- POP or RB.POP with `head = tail` (60_exceptions.md R90), raised by `ringPop`: the caller broke its contract; no word, no
  next state. Safe: the hardware goes on with stale data there, and the spec forbids giving that a value. -/
  | popEmpty
  deriving DecidableEq, Repr

/-- Where the model has no meaning. -/
inductive Refusal where
  /-- An instruction whose meaning is not written yet, raised by `exec`. Safe. -/
  | notModelled (mnemonic : String)
  /-- An EDGE or a case of it in a state with `bits_accumulated` in 16..31, raised by `edgeWith`: a state outside the spec,
  which gives it no semantics (10_state.md R14, 93_implementation_defined.md U5). Safe, and no reachable state has it. -/
  | countOutOfRange
  /-- A case of EDGE in a state where the interval has another symbol, raised by `edgeCase`: the block does not select that case
  there (30_encoding.md R44; log 9). Safe, and no request word asks for it. -/
  | caseNotSelected
  deriving DecidableEq, Repr

/-- The outcome of an operation or a step of this machine. -/
abbrev Outcome := Host.Outcome State Fault Refusal

/-- R27: the state after reset. No slot of `buf` is written by reset, and none has been pushed to: every slot holds its
unspecified power-on contents. -/
def State.reset : State where
  lastEdgeTime := 0
  inProgressWord := 0
  bitsAccumulated := 0
  head := 0
  tail := 0
  buf := []
  input := []
  returned := []
  powerOn := 0

end Sys2Proof.Machine
end

