-- ==== Sys2Proof/Machine/Flags.lean ====
section
/-! DEFINITION. Derived quantities: the status flag (10_state.md R18), the count and the live range (R19), full (R20), and
the two output ports (30_encoding.md R49, 42_cycle_step.md R84). None of them is stored. -/

namespace Sys2Proof.Machine

/-- The array read at a slot: the word last written there, nothing where no push has written since power-on. -/
def Memory.read : Memory → Nat → Option Word
  | [], _ => none
  | (b, w) :: rest, a => if b = a then some w else Memory.read rest a

/-- `buf[i]`: the word last pushed there, else the free power-on contents of the slot (R17, U2). -/
def State.slot (s : State) (i : Index) : Word :=
  (s.buf.read i.toNat).getD (Config.powerOnWord s.powerOn i.toNat)

/-- R18: the status flag `available`, true iff `head != tail`. -/
def State.available (s : State) : Bool := s.head != s.tail

/-- R19: the number of live entries, (head - tail) mod C. -/
def State.count (s : State) : Nat := (s.head - s.tail).toNat

/-- R20: the buffer is full when next(head) = tail, that is when it holds C - 1 entries. -/
def State.full (s : State) : Bool := s.head + 1 == s.tail

/-- R19: the slot is in the live range tail, tail + 1, …, head - 1 (mod C). -/
def State.live (s : State) (i : Index) : Bool := decide ((i - s.tail).toNat < s.count)

/-- R49, R84: the output `rd_data`, buf[tail]; no value while `available` is 0 (U2). -/
def State.rdData (s : State) : Option Word := if s.available then some (s.slot s.tail) else none

end Sys2Proof.Machine
end

