-- ==== Sys2Proof/Machine/Ops.lean ====
section
/-! DEFINITION. The named operations over the array and the registers: writing a slot, one writer per component, and the
RingBuffer operations of 40_ringbuffer.md, which both layers share. The block takes no exception and returns from none
(60_exceptions.md R89, R97), so there is no operation for either; its one fault is raised in `ringPop`. -/

namespace Sys2Proof.Machine

/-! ### The array -/

/-- The canonical form: slots strictly rising, all below C (R28). -/
abbrev Memory.wf (m : Memory) : Prop :=
  (m.map Prod.fst).Pairwise (· < ·) ∧ ∀ c ∈ m, c.1 < Config.capacity

/-- `buf[a] <- w`, keeping the slots in rising order. -/
def Memory.write : Memory → Nat → Word → Memory
  | [], a, w => [(a, w)]
  | (b, v) :: rest, a, w =>
    if a < b then (a, w) :: (b, v) :: rest
    else if a = b then (a, w) :: rest
    else (b, v) :: Memory.write rest a w

/-! ### One writer per component -/

/-- Writes `last_edge_time`. -/
def State.setLastEdgeTime (s : State) (t : Time) : State := { s with lastEdgeTime := t }
/-- Writes `in_progress_word`. -/
def State.setInProgressWord (s : State) (w : Word) : State := { s with inProgressWord := w }
/-- Writes `bits_accumulated`. -/
def State.setBitsAccumulated (s : State) (n : Count) : State := { s with bitsAccumulated := n }
/-- Writes `head`. -/
def State.setHead (s : State) (i : Index) : State := { s with head := i }
/-- Writes `tail`. -/
def State.setTail (s : State) (i : Index) : State := { s with tail := i }
/-- `MemWrite(i, 1, w)`: writes one slot of `buf` (R32). -/
def State.setSlot (s : State) (i : Index) (w : Word) : State := { s with buf := s.buf.write i.toNat w }
/-- Replaces the input trace. -/
def State.setInput (s : State) (cs : List Cycle) : State := { s with input := cs }
/-- Hands a result to the caller (R108: a run's result includes the sequence of values returned). -/
def State.giveBack (s : State) (r : Result) : State := { s with returned := s.returned ++ [r] }

/-! ### The RingBuffer (40_ringbuffer.md) -/

/-- R31: the slot after `i`, (i + 1) mod C; the carry out of the 7 bits is discarded. -/
def nextIndex (i : Index) : Index := i + 1

/-- R57, RB.INIT: both indices to 0; `buf` keeps its contents. -/
def ringInit (s : State) : State := (s.setHead 0).setTail 0

/-- R58, RB.PUSH: the write uses the old `head`, the comparison the new `head` and the old `tail`; on a collision the oldest
entry is evicted. -/
def ringPush (v : Word) (s : State) : State :=
  let s := s.setSlot s.head v
  let s := s.setHead (nextIndex s.head)
  if s.head = s.tail then s.setTail (nextIndex s.tail) else s

/-- R59, RB.POP: the word at the old `tail`, and `tail` moves on; on an empty buffer the outcome PopEmpty (R90). -/
def ringPop (s : State) : Outcome :=
  if s.head = s.tail then .fault .popEmpty
  else .next ((s.setTail (nextIndex s.tail)).giveBack (.word (s.slot s.tail)))

/-- R60, RB.AVAILABLE: hands back the flag and changes nothing else. -/
def ringAvailable (s : State) : State := s.giveBack (.bit s.available)

end Sys2Proof.Machine
end

