-- ==== Sys2Proof/Machine/RingBuffer.lean ====
section
/-! DEFINITION. The meanings of the RingBuffer layer (40_ringbuffer.md R57 to R60, 42_cycle_step.md R86). -/

namespace Sys2Proof.Machine

/-- RB.INIT (R57). -/
def execRbInit (s : State) : Outcome := .next (ringInit s)

/-- RB.PUSH (R58): it always succeeds and signals nothing (R61). -/
def execRbPush (value : Word) (s : State) : Outcome := .next (ringPush value s)

/-- RB.POP (R59, R90). -/
def execRbPop (s : State) : Outcome := ringPop s

/-- RB.AVAILABLE (R60). -/
def execRbAvailable (s : State) : Outcome := .next (ringAvailable s)

/-- RB.NOP (R86): no change. -/
def execRbNop (s : State) : Outcome := .next s

end Sys2Proof.Machine
end

