-- ==== Sys2Proof/Machine/Operands.lean ====
section
/-! DEFINITION. What an EDGE computes from its operand and the decoder registers (41_signal_decoder.md R66 to R71): the
interval and its symbol, the transition by symbol, the emission. -/

namespace Sys2Proof.Machine

/-- R67: `elapsed`, from the operand and the old `last_edge_time`. -/
def State.elapsed (s : State) (now : Time) : Time := elapsedSince s.lastEdgeTime now

/-- R68, R69: the accumulator shifted left by one inside its 16 bits, the new bit at the bottom. -/
def shiftIn (w : Word) (bit : Bool) : Word := w <<< 1 ||| (if bit then 1 else 0)

/-- R68, R69: a data symbol enters its bit and counts it. -/
def acceptBit (bit : Bool) (s : State) : State :=
  (s.setInProgressWord (shiftIn s.inProgressWord bit)).setBitsAccumulated (s.bitsAccumulated + 1)

/-- R66 step 3: the transition by symbol. FRAME_RESET leaves the accumulator as it is (R70, R80). -/
def transition (sym : Symbol) (s : State) : State :=
  match sym with
  | .zero => acceptBit false s
  | .one => acceptBit true s
  | .frameReset => s.setBitsAccumulated 0

/-- R71, R66 step 4: at sixteen bits the accumulator is pushed and the count restarts; the accumulator is not cleared. -/
def emission (s : State) : State :=
  if s.bitsAccumulated.toNat = Config.bitsPerWord then (ringPush s.inProgressWord s).setBitsAccumulated 0 else s

/-- R66: an EDGE whose symbol is `sym`. A count that is already 16 or more is a state outside the spec (R14, U5). -/
def edgeWith (sym : Symbol) (now : Time) (s : State) : Outcome :=
  if s.bitsAccumulated.toNat < Config.bitsPerWord then
    .next (emission (transition sym (s.setLastEdgeTime now)))
  else .refused .countOutOfRange

/-- One of the three cases of EDGE: it runs where the interval has that symbol (R43), and there is no such operation where
it has another one (R44; log 9). -/
def edgeCase (sym : Symbol) (now : Time) (s : State) : Outcome :=
  if classify (s.elapsed now) = sym then edgeWith sym now s else .refused .caseNotSelected

end Sys2Proof.Machine
end

