-- ==== Sys2Proof/Machine/SignalDecoder.lean ====
section
/-! DEFINITION. The meanings of the SignalDecoder layer (41_signal_decoder.md R65 to R73, 42_cycle_step.md R85). -/

namespace Sys2Proof.Machine

/-- SETUP (R65): the decoder registers to 0, and RB.INIT. Also what `rst` performs (R104). -/
def execSetup (s : State) : Outcome :=
  .next (ringInit (((s.setLastEdgeTime 0).setBitsAccumulated 0).setInProgressWord 0))

/-- EDGE (R66): the symbol is that of the interval since the previous edge. -/
def execEdge (now : Time) (s : State) : Outcome := edgeWith (classify (s.elapsed now)) now s

/-- EDGE.ZERO (R68). -/
def execEdgeZero (now : Time) (s : State) : Outcome := edgeCase .zero now s

/-- EDGE.ONE (R69). -/
def execEdgeOne (now : Time) (s : State) : Outcome := edgeCase .one now s

/-- EDGE.FRAME_RESET (R70). -/
def execEdgeFrameReset (now : Time) (s : State) : Outcome := edgeCase .frameReset now s

/-- AVAILABLE (R72): it delegates to RB.AVAILABLE. -/
def execAvailable (s : State) : Outcome := .next (ringAvailable s)

/-- POP (R73): it delegates to RB.POP, with the same precondition (R90). -/
def execPop (s : State) : Outcome := ringPop s

/-- NOP (R85): no change; nothing in the block runs freely. -/
def execNop (s : State) : Outcome := .next s

end Sys2Proof.Machine
end

