-- ==== Sys2Proof/Machine/Dispatch.lean ====
section
/-! DEFINITION. One arm per constructor of Instr, each a call of that operation's meaning (30_encoding.md R42). -/

namespace Sys2Proof.Machine

def exec (i : Instr) (s : State) : Host.Outcome State Fault Refusal :=
  match i with
  | .rbInit => Sys2Proof.Machine.execRbInit s
  | .rbPush value => Sys2Proof.Machine.execRbPush value s
  | .rbPop => Sys2Proof.Machine.execRbPop s
  | .rbAvailable => Sys2Proof.Machine.execRbAvailable s
  | .rbNop => Sys2Proof.Machine.execRbNop s
  | .setup => Sys2Proof.Machine.execSetup s
  | .edge now => Sys2Proof.Machine.execEdge now s
  | .edgeZero now => Sys2Proof.Machine.execEdgeZero now s
  | .edgeOne now => Sys2Proof.Machine.execEdgeOne now s
  | .edgeFrameReset now => Sys2Proof.Machine.execEdgeFrameReset now s
  | .available => Sys2Proof.Machine.execAvailable s
  | .pop => Sys2Proof.Machine.execPop s
  | .nop => Sys2Proof.Machine.execNop s

end Sys2Proof.Machine
end

