-- ==== Sys2Proof/Machine/ClockCycle.lean ====
section
/-! DEFINITION. Runs of operations (20_memory.md R36), one clock cycle (42_cycle_step.md R83, R86, R87), and where the next
cycle comes from (10_state.md R25). -/

namespace Sys2Proof.Machine

/-- R36: operations one after the other, each on the state the one before it left. A fault is final (R90). -/
def runOps : List Instr → State → Outcome
  | [], s => .next s
  | i :: is, s =>
    match exec i s with
    | .next t => runOps is t
    | .fault r => .fault r
    | .refused r => .refused r

/-- R87: a cycle is the short sequence of operations its pins ask for. -/
def runCycle (c : Cycle) (s : State) : Outcome := runOps (decodeCycle c) s

/-- A cycle of IRDEC with no request (R42: NOP is "no request"). -/
def idleCycle : Cycle := .top false false 0

/-- The cycle the environment presents next; where the trace lists no more, no request is presented (log 4). -/
def nextCycle (s : State) : Cycle := s.input.headD idleCycle

/-- The state in which that cycle runs: it is taken off the input trace. -/
def afterFetch (s : State) : State := s.setInput s.input.tail

/-- The cycle that presents a word of the operation table is put before the input trace; a number that is no request word
changes nothing. -/
def presentTableWord (s : State) (nbits w : Nat) : State :=
  match tableCycle nbits w with
  | .ok c => s.setInput (c :: s.input)
  | .error _ => s

/-- R71: the EDGE of a cycle with this request, where one is performed, reaches its emission step with sixteen bits. -/
def edgeEmits (req : Req) (s : State) : Bool :=
  decide ((transition (classify (s.elapsed (reqNow req))) s).bitsAccumulated.toNat = Config.bitsPerWord)

/-- `push` of the sub-block's request (R50, R86): an EDGE is performed, as none is in a cycle of SETUP or reset (R83), and it
emits. -/
def cyclePushes (rst : Bool) (req : Req) (s : State) : Bool := !rst && !reqSetup req && reqEdge req && edgeEmits req s

/-- `value` of the sub-block's request (R50, R86): the accumulator after the shift. -/
def shiftedWord (req : Req) (s : State) : Word := (transition (classify (s.elapsed (reqNow req))) s).inProgressWord

/-- R86: what the sub-block sees inside IRDEC: `init` = rst or req.setup, `pop` = req.pop. -/
def subRequest (rst : Bool) (req : Req) (s : State) : RbReq :=
  rbReqWord (rst || reqSetup req) (cyclePushes rst req s) (reqPop req) (shiftedWord req s)

/-- R50: the same request by the operations selected (R48): `init` = SETUP selected, `pop` = POP selected. Reset reaches the
sub-block through its own `rst` port (R82). Where it differs from R86's it asks for the same operations (log 17). -/
def selectedSubRequest (rst : Bool) (req : Req) (s : State) : RbReq :=
  rbReqWord (reqSetup req) (cyclePushes rst req s) (!reqSetup req && reqPop req) (shiftedWord req s)

end Sys2Proof.Machine
end

