-- ==== Sys2Proof/Machine/Step.lean ====
section
/-! DEFINITION. One step: the block takes the next cycle's pins and performs what they ask for (42_cycle_step.md R83). -/

namespace Sys2Proof.Machine

/-- One rising clock edge. -/
def step (s : State) : Host.Outcome State Fault Refusal := runCycle (nextCycle s) (afterFetch s)

/-- `s` with a word of the operation table presented in the very next cycle (log 4: the environment presents programs). -/
def State.withFetchWord (s : State) (nbits w : Nat) : State := presentTableWord s nbits w

end Sys2Proof.Machine
end

