-- ==== Sys2Proof/Safety.lean ====
section
/-! DEFINITION. The terms claims use: the invariant of reachable states (10_state.md R14, R22), the contract on the consumer
(70_reset_and_hazards.md R109), the queue as a list (R22), and the words a sequence of intervals stands for (41_signal_decoder.md
R76). -/

namespace Sys2Proof.Machine

/-- What every state between operations satisfies. -/
structure State.Inv (s : State) : Prop where
  /-- R14: `bits_accumulated` is in 0..15. -/
  count_lt : s.bitsAccumulated.toNat < 16
  /-- The array is in canonical form. -/
  buf_wf : s.buf.wf
  /-- R59 corner case (a): every live slot was written by some push. -/
  live_written : ∀ i : Index, s.live i = true → (s.buf.read i.toNat).isSome = true

/-- R109: the cycle asserts `req_pop` only while `available` is 1; in a cycle that also performs SETUP or reset the POP is
dropped (R83), so nothing is asked of it. -/
def popGuarded (c : Cycle) (s : State) : Bool :=
  !((decodeCycle c).contains .pop || (decodeCycle c).contains .rbPop) || s.available

/-- R22: the live entries, oldest first. -/
def State.queue (s : State) : List Word :=
  (List.range s.count).map fun k => s.slot (s.tail + BitVec.ofNat 7 k)

/-- R63 (b): what a queue of at most C - 1 = 127 words is after one more word: at the limit the oldest word goes. -/
def enqueue (q : List Word) (v : Word) : List Word :=
  (if q.length < 127 then q else q.drop 1) ++ [v]

/-- The symbols of a sequence of edges, each interval measured from the edge before it (R66, R67). -/
def symbolsFrom : Time → List Time → List Symbol
  | _, [] => []
  | last, now :: rest => classify (elapsedSince last now) :: symbolsFrom now rest

/-- R46: sixteen bits read most significant bit first. -/
def wordOfBits (bits : List Bool) : Word :=
  BitVec.ofNat 16 (bits.foldl (fun n b => 2 * n + b.toNat) 0)

/-- One more data bit after the bits `pending`: at sixteen of them a word is complete. -/
def completeWord (pending : List Bool) : Option Word :=
  if pending.length = 16 then some (wordOfBits pending) else none

/-- R76: the words a sequence of symbols stands for, given the data bits since the last FRAME_RESET or emission. -/
def wordsOf : List Bool → List Symbol → List Word
  | _, [] => []
  | _, .frameReset :: rest => wordsOf [] rest
  | pending, .zero :: rest =>
    match completeWord (pending ++ [false]) with
    | some w => w :: wordsOf [] rest
    | none => wordsOf (pending ++ [false]) rest
  | pending, .one :: rest =>
    match completeWord (pending ++ [true]) with
    | some w => w :: wordsOf [] rest
    | none => wordsOf (pending ++ [true]) rest

/-! ### What two states share -/

/-- The decoder registers (R12 to R14) are the same. -/
def sameDecoder (s t : State) : Prop :=
  t.lastEdgeTime = s.lastEdgeTime ∧ t.inProgressWord = s.inProgressWord ∧ t.bitsAccumulated = s.bitsAccumulated

/-- Every slot of the array reads the same. -/
def sameArray (s t : State) : Prop := ∀ a, t.buf.read a = s.buf.read a

/-- Every slot of the array but `i` reads the same. -/
def sameArrayBut (i : Index) (s t : State) : Prop := ∀ a, a ≠ i.toNat → t.buf.read a = s.buf.read a

/-- The RingBuffer (R15 to R17) is the same. -/
def sameRing (s t : State) : Prop := t.head = s.head ∧ t.tail = s.tail ∧ sameArray s t

/-- The model's own fields for the environment are the same: the input trace and the power-on contents. -/
def sameEnvironment (s t : State) : Prop := t.input = s.input ∧ t.powerOn = s.powerOn

/-! ### Agents (60_exceptions.md R98) -/

/-- POP of either layer. -/
def isPop : Instr → Bool
  | .pop => true
  | .rbPop => true
  | _ => false

/-- AVAILABLE of either layer. -/
def isAvailable : Instr → Bool
  | .available => true
  | .rbAvailable => true
  | _ => false

/-- SETUP and RB.INIT. -/
def isInit : Instr → Bool
  | .setup => true
  | .rbInit => true
  | _ => false

/-- The operation stores a word in this state: RB.PUSH always, EDGE and its cases when a data symbol is the sixteenth (R32, R71). -/
def storesWord (i : Instr) (s : State) : Bool :=
  i.setsPush || (i.setsEdge && s.bitsAccumulated == 15 && classify (s.elapsed i.nowField) != .frameReset)

end Sys2Proof.Machine
end

