-- ==== Sys2Proof/Certificates/Slice0/Obligations.lean ====
section
/-! DEFINITION. The statements for the provers. Each docstring names the rule or section of spec/ it comes from. -/

open Sys2Proof Sys2Proof.Machine

/-! ### Reset and SETUP -/

/-- 10_state.md R27, for the values the spec gives: after reset, after SETUP and after a cycle with `rst` = 1 the five
registers are 0, `available` is false and the count is 0; no slot counts as written after reset, and SETUP and `rst` leave every
slot of `buf` as it was. -/
def Obligations.ResetAndSetupValues : Prop :=
  (State.reset.lastEdgeTime = 0 ∧ State.reset.inProgressWord = 0 ∧ State.reset.bitsAccumulated = 0 ∧
    State.reset.head = 0 ∧ State.reset.tail = 0 ∧ State.reset.available = false ∧ State.reset.count = 0 ∧
    ∀ a, State.reset.buf.read a = none) ∧
  ∀ (s : State) (req : Req), ∃ t, exec .setup s = .next t ∧ runCycle (.top true false req) s = .next t ∧
    t.lastEdgeTime = 0 ∧ t.inProgressWord = 0 ∧ t.bitsAccumulated = 0 ∧ t.head = 0 ∧ t.tail = 0 ∧
    sameArray s t ∧ t.available = false ∧ t.count = 0

/-- 41_signal_decoder.md R65: SETUP, its encoding, and that a second one changes nothing. -/
def Obligations.SetupClearsRegistersKeepsBuf : Prop :=
  (∀ s : State, exec .setup s = .next { s with
    lastEdgeTime := 0, bitsAccumulated := 0, inProgressWord := 0, head := 0, tail := 0 }) ∧
  (∀ s t : State, exec .setup s = .next t → t.available = false ∧ runOps [.setup, .setup] s = .next t) ∧
  (∀ (s : State) (req : Req), req.getLsbD 34 = true → runCycle (.top false false req) s = exec .setup s) ∧
  (∀ (s : State) (req : Req), runCycle (.top true false req) s = exec .setup s)

/-- 70_reset_and_hazards.md R106: SETUP and RB.INIT are idempotent, the five registers after SETUP do not depend on the
state before, and the old words are still in `buf` behind an empty buffer. -/
def Obligations.SetupAndInitIdempotent : Prop :=
  (∀ s : State, runOps [.setup, .setup] s = runOps [.setup] s ∧ runOps [.rbInit, .rbInit] s = runOps [.rbInit] s) ∧
  ∀ s s' : State, ∃ t t', exec .setup s = .next t ∧ exec .setup s' = .next t' ∧
    t.lastEdgeTime = t'.lastEdgeTime ∧ t.inProgressWord = t'.inProgressWord ∧
    t.bitsAccumulated = t'.bitsAccumulated ∧ t.head = t'.head ∧ t.tail = t'.tail ∧
    t.queue = [] ∧ t.available = false ∧ sameArray s t

/-- 41_signal_decoder.md R74: the first EDGE after SETUP classifies its absolute timestamp. -/
def Obligations.InitialEdgeClassifiesTimestamp : Prop :=
  ∀ (s : State) (now : Time), ∃ t, runOps [.setup, .edge now] s = .next t ∧ t.lastEdgeTime = now ∧
    (2400 ≤ now.toNat → t.bitsAccumulated = 0 ∧ t.inProgressWord = 0) ∧
    (now.toNat < 1200 → t.bitsAccumulated = 1 ∧ t.inProgressWord = 0) ∧
    (1200 ≤ now.toNat → now.toNat < 2400 → t.bitsAccumulated = 1 ∧ t.inProgressWord = 1) ∧
    t.available = false

/-! ### RingBuffer operations -/

/-- 40_ringbuffer.md R57: RB.INIT. -/
def Obligations.RbInitResetsIndices : Prop :=
  (∀ s : State, exec .rbInit s = .next { s with head := 0, tail := 0 }) ∧
  (∀ s t : State, exec .rbInit s = .next t →
    t.available = false ∧ t.queue = [] ∧ runOps [.rbInit, .rbInit] s = .next t) ∧
  (∀ (s : State) (rbReq : RbReq), rbReq.getLsbD 18 = true →
    runCycle (.ringBuffer false false rbReq) s = exec .rbInit s) ∧
  (∀ s : State, exec .setup s =
    exec .rbInit { s with lastEdgeTime := 0, bitsAccumulated := 0, inProgressWord := 0 }) ∧
  (∀ (req : Req) (sample : Bool), req.getLsbD 34 = false →
    .setup ∉ decodeCycle (.top false sample req) ∧ .rbInit ∉ decodeCycle (.top false sample req))

/-- 40_ringbuffer.md R58: RB.PUSH writes at the old `head`, advances `head`, and evicts the oldest entry when the new `head`
meets `tail`; no top-level request asks for it. -/
def Obligations.RbPushWritesAtHead : Prop :=
  (∀ (v : Word) (s : State), ∃ t, exec (.rbPush v) s = .next t ∧
    t.buf.read s.head.toNat = some v ∧ sameArrayBut s.head s t ∧
    t.head = s.head + 1 ∧ t.tail = (if s.head + 1 = s.tail then s.tail + 1 else s.tail) ∧
    sameDecoder s t ∧ sameEnvironment s t ∧ t.returned = s.returned ∧ t.available = true ∧
    t.count = min (s.count + 1) 127) ∧
  (∀ (s : State) (rbReq : RbReq), rbReq.getLsbD 18 = false → rbReq.getLsbD 17 = true → rbReq.getLsbD 16 = false →
    runCycle (.ringBuffer false false rbReq) s = exec (.rbPush (rbReq.setWidth 16)) s) ∧
  (∀ rbReq : RbReq, rbReq.getLsbD 18 = false → rbReq.getLsbD 17 = true →
    .rbPush (rbReq.setWidth 16) ∈ decodeRbReq rbReq) ∧
  (∀ (rst sample : Bool) (req : Req) (v : Word), .rbPush v ∉ decodeCycle (.top rst sample req))

/-- 40_ringbuffer.md R59: RB.POP hands back the word at the old `tail` and advances `tail`; `head` and `buf` are not written;
`available` becomes false iff that was the only entry; the slot read is a live one. -/
def Obligations.RbPopReturnsOldest : Prop :=
  (∀ s : State, s.head ≠ s.tail →
    exec .rbPop s =
      .next { s with tail := s.tail + 1, returned := s.returned ++ [.word (s.slot s.tail)] }) ∧
  (∀ s t : State, exec .rbPop s = .next t →
    (t.available = false ↔ s.count = 1) ∧ t.count + 1 = s.count ∧ s.live s.tail = true) ∧
  (∀ s : State, s.head = s.tail → exec .rbPop s = .fault .popEmpty) ∧
  (∀ (s : State) (rbReq : RbReq), rbReq.getLsbD 18 = false → rbReq.getLsbD 17 = false → rbReq.getLsbD 16 = true →
    runCycle (.ringBuffer false false rbReq) s = exec .rbPop s) ∧
  (∀ rbReq : RbReq, rbReq.getLsbD 18 = false → rbReq.getLsbD 16 = true → .rbPop ∈ decodeRbReq rbReq)

/-- 40_ringbuffer.md R60: RB.AVAILABLE hands back `head != tail` and changes no component of the block. -/
def Obligations.RbAvailableReadsFlag : Prop :=
  ∀ s : State, exec .rbAvailable s = .next { s with returned := s.returned ++ [.bit s.available] } ∧
    (s.available = true ↔ s.head ≠ s.tail) ∧
    runCycle (.ringBuffer false true 0) s = exec .rbAvailable s

/-- 42_cycle_step.md R85: NOP changes nothing, whatever `now` is, and idle cycles between two requests have no effect on any
later result. RB.NOP of R86 is the same. -/
def Obligations.IdleOperationsChangeNothing : Prop :=
  (∀ s : State, exec .nop s = .next s ∧ exec .rbNop s = .next s) ∧
  (∀ (s : State) (req : Req), req.getLsbD 34 = false → req.getLsbD 33 = false → req.getLsbD 32 = false →
    runCycle (.top false false req) s = .next s) ∧
  (∀ (s : State) (rbReq : RbReq), rbReq.getLsbD 18 = false → rbReq.getLsbD 17 = false → rbReq.getLsbD 16 = false →
    runCycle (.ringBuffer false false rbReq) s = .next s) ∧
  (∀ (s : State) (before after : List Instr) (n : Nat),
    runOps (before ++ (List.replicate n .nop ++ after)) s = runOps (before ++ after) s)

/-- 60_exceptions.md R90: POP and RB.POP on an empty buffer have the outcome PopEmpty, final for the trace. -/
def Obligations.PopOnEmptyIsPopEmpty : Prop :=
  ∀ s : State, s.head = s.tail →
    exec .pop s = .fault .popEmpty ∧ exec .rbPop s = .fault .popEmpty ∧
    ∀ (before after : List Instr) (r : State), runOps before r = .next s →
      runOps (before ++ .pop :: after) r = .fault .popEmpty ∧
      runOps (before ++ .rbPop :: after) r = .fault .popEmpty

/-! ### SignalDecoder operations -/

/-- 41_signal_decoder.md R66: EDGE, its four steps written out from the pseudocode over the old state. -/
def Obligations.EdgeFollowsPseudocode : Prop :=
  (∀ (now : Time) (s : State), s.bitsAccumulated.toNat < 16 →
    let elapsed := now - s.lastEdgeTime
    let word :=
      if elapsed.toNat < 1200 then s.inProgressWord <<< 1
      else if elapsed.toNat < 2400 then s.inProgressWord <<< 1 ||| 1
      else s.inProgressWord
    let bits := if elapsed.toNat < 2400 then s.bitsAccumulated + 1 else 0
    exec (.edge now) s = .next (
      if bits = 16 then
        { s with
          lastEdgeTime := now, inProgressWord := word, bitsAccumulated := 0
          buf := s.buf.write s.head.toNat word
          head := s.head + 1
          tail := if s.head + 1 = s.tail then s.tail + 1 else s.tail }
      else
        { s with lastEdgeTime := now, inProgressWord := word, bitsAccumulated := bits })) ∧
  (∀ (s : State) (req : Req), req.getLsbD 34 = false → req.getLsbD 33 = true → req.getLsbD 32 = false →
    runCycle (.top false false req) s = exec (.edge (req.setWidth 32)) s) ∧
  (∀ req : Req, req.getLsbD 34 = false → req.getLsbD 33 = true → .edge (req.setWidth 32) ∈ decodeReq req)

/-- 41_signal_decoder.md R67: the interval is the difference of the timestamps modulo 2^32, right for every true interval below
2^32 whatever wraps, and every EDGE leaves its `now` in `last_edge_time`. -/
def Obligations.ElapsedIsModularDifference : Prop :=
  (∀ last now : Time, (elapsedSince last now).toNat = (now.toNat + 2 ^ 32 - last.toNat) % 2 ^ 32) ∧
  (∀ (last : Time) (d : Nat), d < 2 ^ 32 → (elapsedSince last (BitVec.ofNat 32 (last.toNat + d))).toNat = d) ∧
  (∀ (now : Time) (s t : State), exec (.edge now) s = .next t → t.lastEdgeTime = now)

/-- 30_encoding.md R43, R44, R45: the three classes with their bounds; every interval has exactly one symbol. -/
def Obligations.ClassifyByThresholds : Prop :=
  ∀ e : Time,
    (classify e = .zero ↔ e.toNat < 1200) ∧
    (classify e = .one ↔ 1200 ≤ e.toNat ∧ e.toNat < 2400) ∧
    (classify e = .frameReset ↔ 2400 ≤ e.toNat) ∧
    classify 0 = .zero ∧ classify 1199 = .zero ∧ classify 1200 = .one ∧ classify 2399 = .one ∧
    classify 2400 = .frameReset ∧ classify (BitVec.allOnes 32) = .frameReset

/-- 41_signal_decoder.md R68: EDGE.ZERO shifts a 0 in at the bottom, drops the old bit 15 and counts one; at the sixteenth
bit the word is pushed and the count restarts (R71). -/
def Obligations.EdgeZeroShiftsInZero : Prop :=
  ∀ (now : Time) (s : State), s.bitsAccumulated.toNat < 16 → (now - s.lastEdgeTime).toNat < 1200 →
    ∃ t, exec (.edgeZero now) s = .next t ∧ exec (.edge now) s = .next t ∧
      t.lastEdgeTime = now ∧
      t.inProgressWord.getLsbD 0 = false ∧
      (∀ k, k < 15 → t.inProgressWord.getLsbD (k + 1) = s.inProgressWord.getLsbD k) ∧
      t.returned = s.returned ∧ sameEnvironment s t ∧
      (s.bitsAccumulated.toNat < 15 → t.bitsAccumulated.toNat = s.bitsAccumulated.toNat + 1 ∧ sameRing s t) ∧
      (s.bitsAccumulated.toNat = 15 → t.bitsAccumulated = 0 ∧
        t.buf.read s.head.toNat = some t.inProgressWord ∧ sameArrayBut s.head s t ∧
        t.head = s.head + 1 ∧ t.tail = (if s.head + 1 = s.tail then s.tail + 1 else s.tail))

/-- 41_signal_decoder.md R69: EDGE.ONE shifts a 1 in at the bottom, drops the old bit 15 and counts one; at the sixteenth bit
the word is pushed and the count restarts (R71). -/
def Obligations.EdgeOneShiftsInOne : Prop :=
  ∀ (now : Time) (s : State), s.bitsAccumulated.toNat < 16 →
    1200 ≤ (now - s.lastEdgeTime).toNat → (now - s.lastEdgeTime).toNat < 2400 →
    ∃ t, exec (.edgeOne now) s = .next t ∧ exec (.edge now) s = .next t ∧
      t.lastEdgeTime = now ∧
      t.inProgressWord.getLsbD 0 = true ∧
      (∀ k, k < 15 → t.inProgressWord.getLsbD (k + 1) = s.inProgressWord.getLsbD k) ∧
      t.returned = s.returned ∧ sameEnvironment s t ∧
      (s.bitsAccumulated.toNat < 15 → t.bitsAccumulated.toNat = s.bitsAccumulated.toNat + 1 ∧ sameRing s t) ∧
      (s.bitsAccumulated.toNat = 15 → t.bitsAccumulated = 0 ∧
        t.buf.read s.head.toNat = some t.inProgressWord ∧ sameArrayBut s.head s t ∧
        t.head = s.head + 1 ∧ t.tail = (if s.head + 1 = s.tail then s.tail + 1 else s.tail))

/-- 41_signal_decoder.md R70: EDGE.FRAME_RESET sets the count to 0, leaves the accumulator as it is and pushes nothing,
whatever the count was. -/
def Obligations.EdgeFrameResetRestartsCount : Prop :=
  ∀ (now : Time) (s : State), s.bitsAccumulated.toNat < 16 → 2400 ≤ (now - s.lastEdgeTime).toNat →
    exec (.edgeFrameReset now) s = .next { s with lastEdgeTime := now, bitsAccumulated := 0 } ∧
    exec (.edge now) s = .next { s with lastEdgeTime := now, bitsAccumulated := 0 }

/-- 41_signal_decoder.md R71: the sixteenth data symbol pushes the whole shifted accumulator, exactly as an RB.PUSH of it would,
restarts the count and does not clear the accumulator; no other EDGE pushes. -/
def Obligations.EmissionPushesAccumulator : Prop :=
  ∀ (now : Time) (s : State), s.bitsAccumulated.toNat < 16 → ∃ t, exec (.edge now) s = .next t ∧
    (s.bitsAccumulated = 15 → classify (now - s.lastEdgeTime) ≠ .frameReset →
      t.bitsAccumulated = 0 ∧
      ∃ u, exec (.rbPush t.inProgressWord) s = .next u ∧ t.head = u.head ∧ t.tail = u.tail ∧ t.buf = u.buf) ∧
    (s.bitsAccumulated ≠ 15 ∨ classify (now - s.lastEdgeTime) = .frameReset →
      t.head = s.head ∧ t.tail = s.tail ∧ t.buf = s.buf)

/-- 30_encoding.md R42 and the table's row EDGE: an EDGE is the one of its three cases that the interval's symbol selects. -/
def Obligations.EdgeRunsItsSelectedCase : Prop :=
  ∀ (now : Time) (s : State),
    exec (.edge now) s = exec (resolveEdge s.lastEdgeTime now) s ∧
    (classify (now - s.lastEdgeTime) = .zero → exec (.edge now) s = exec (.edgeZero now) s) ∧
    (classify (now - s.lastEdgeTime) = .one → exec (.edge now) s = exec (.edgeOne now) s) ∧
    (classify (now - s.lastEdgeTime) = .frameReset → exec (.edge now) s = exec (.edgeFrameReset now) s)

/-- The model's choice (log 9): a case of EDGE taken alone runs only where its symbol is the interval's. -/
def Obligations.UnselectedEdgeCaseStops : Prop :=
  ∀ (sym : Symbol) (now : Time) (s : State), classify (now - s.lastEdgeTime) ≠ sym →
    exec (edgeCaseOf sym now) s = .refused .caseNotSelected

/-- The model's choice (log 8), after 93_implementation_defined.md U5: with a count of 16..31, a state outside the spec, EDGE is
refused by name, and SETUP still runs. -/
def Obligations.EdgeOutsideLegalCountStops : Prop :=
  ∀ (now : Time) (s : State), 16 ≤ s.bitsAccumulated.toNat →
    exec (.edge now) s = .refused .countOutOfRange ∧
    exec (resolveEdge s.lastEdgeTime now) s = .refused .countOutOfRange ∧
    ∃ t, exec .setup s = .next t ∧ t.bitsAccumulated = 0

/-- 41_signal_decoder.md R72: AVAILABLE delegates to RB.AVAILABLE: it hands back `head != tail` and changes no component. -/
def Obligations.AvailableDelegates : Prop :=
  ∀ s : State, exec .available s = .next { s with returned := s.returned ++ [.bit (s.head != s.tail)] } ∧
    exec .available s = exec .rbAvailable s ∧
    runCycle (.top false true 0) s = exec .available s

/-- 41_signal_decoder.md R73: POP delegates to RB.POP: the oldest word, `tail` advances, and nothing else of the block changes, so
a frame in progress is not disturbed. -/
def Obligations.PopDelegates : Prop :=
  (∀ s : State, exec .pop s = exec .rbPop s) ∧
  (∀ s : State, s.head ≠ s.tail →
    exec .pop s = .next { s with tail := s.tail + 1, returned := s.returned ++ [.word (s.slot s.tail)] }) ∧
  (∀ s t : State, exec .pop s = .next t → (t.available = false ↔ s.count = 1)) ∧
  (∀ s : State, s.head = s.tail → exec .pop s = .fault .popEmpty) ∧
  (∀ (s : State) (req : Req), req.getLsbD 34 = false → req.getLsbD 33 = false → req.getLsbD 32 = true →
    runCycle (.top false false req) s = exec .pop s) ∧
  (∀ req : Req, req.getLsbD 34 = false → req.getLsbD 32 = true → .pop ∈ decodeReq req)

/-! ### The clocked wrapper -/

/-- 42_cycle_step.md R83: reset or SETUP alone, else POP first and EDGE second; the POP hands back the word `rd_data` showed in the
cycle, and on an empty buffer it is the contract violation, whatever the EDGE of the cycle does. -/
def Obligations.CyclePriorityAndOrder : Prop :=
  ∀ (s : State) (rst : Bool) (req : Req),
    (rst = true ∨ req.getLsbD 34 = true → runCycle (.top rst false req) s = exec .setup s) ∧
    (rst = false → req.getLsbD 34 = false → req.getLsbD 32 = true → req.getLsbD 33 = true →
      (∀ t, exec .pop s = .next t → runCycle (.top rst false req) s = exec (.edge (req.setWidth 32)) t) ∧
      (∀ r, exec .pop s = .fault r → runCycle (.top rst false req) s = .fault r)) ∧
    (s.head = s.tail → rst = false → req.getLsbD 34 = false → req.getLsbD 32 = true →
      runCycle (.top rst false req) s = .fault .popEmpty) ∧
    (s.head ≠ s.tail → ∃ t w, exec .pop s = .next t ∧ s.rdData = some w ∧
      t.returned = s.returned ++ [.word w] ∧ t.tail = s.tail + 1) ∧
    (rst = false → req.getLsbD 34 = false → req.getLsbD 32 = true → req.getLsbD 33 = false →
      runCycle (.top rst false req) s = exec .pop s) ∧
    (rst = false → req.getLsbD 34 = false → req.getLsbD 32 = false → req.getLsbD 33 = true →
      runCycle (.top rst false req) s = exec (.edge (req.setWidth 32)) s) ∧
    (rst = false → req.getLsbD 34 = false → req.getLsbD 32 = false → req.getLsbD 33 = false →
      runCycle (.top rst false req) s = .next s)

/-- 42_cycle_step.md R83 corner case (b): a POP and a word-completing EDGE in one cycle on a full buffer evict nothing. -/
def Obligations.SameCyclePopMakesRoom : Prop :=
  ∀ (s : State) (now : Time) (oldest : Word) (rest : List Word),
    s.bitsAccumulated = 15 → classify (now - s.lastEdgeTime) ≠ .frameReset →
    s.count = 127 → s.queue = oldest :: rest →
    ∃ t, runCycle (.top false false (reqWord false true true now)) s = .next t ∧
      t.count = 127 ∧ t.returned = s.returned ++ [.word oldest] ∧ t.queue = rest ++ [t.inProgressWord]

/-- 42_cycle_step.md R83 corner case (c): a POP and an EDGE that pushes nothing act on disjoint state, so their order is
immaterial. -/
def Obligations.PopAndSilentEdgeCommute : Prop :=
  ∀ (s : State) (now : Time), s.bitsAccumulated.toNat < 15 ∨
      (s.bitsAccumulated.toNat < 16 ∧ classify (now - s.lastEdgeTime) = .frameReset) →
    runOps [.pop, .edge now] s = runOps [.edge now, .pop] s

/-- 42_cycle_step.md R84 and R83: the outputs are functions of the state; the word that a POP returns, with an EDGE in the
same cycle or without, is the one `rd_data` showed in the cycle; `rd_data` has a value exactly while `available` is 1. -/
def Obligations.PopReturnsShownWord : Prop :=
  (∀ s : State, s.available = (s.head != s.tail) ∧ (s.rdData.isSome = true ↔ s.available = true) ∧
    (s.head ≠ s.tail → s.rdData = some (s.slot s.tail))) ∧
  ∀ (s t : State) (req : Req), req.getLsbD 34 = false → req.getLsbD 32 = true →
    runCycle (.top false false req) s = .next t →
    ∃ w, s.rdData = some w ∧ t.returned = s.returned ++ [.word w]

/-- 42_cycle_step.md R86, the step of the sub-block alone: init alone, else pop first and push second. -/
def Obligations.RbCyclePriorityAndOrder : Prop :=
  ∀ (s : State) (rst : Bool) (rbReq : RbReq),
    (rst = true ∨ rbReq.getLsbD 18 = true → runCycle (.ringBuffer rst false rbReq) s = exec .rbInit s) ∧
    (rst = false → rbReq.getLsbD 18 = false → rbReq.getLsbD 16 = true → rbReq.getLsbD 17 = true →
      (∀ t, exec .rbPop s = .next t →
        runCycle (.ringBuffer rst false rbReq) s = exec (.rbPush (rbReq.setWidth 16)) t) ∧
      (∀ r, exec .rbPop s = .fault r → runCycle (.ringBuffer rst false rbReq) s = .fault r)) ∧
    (rst = false → rbReq.getLsbD 18 = false → rbReq.getLsbD 16 = true → rbReq.getLsbD 17 = false →
      runCycle (.ringBuffer rst false rbReq) s = exec .rbPop s) ∧
    (rst = false → rbReq.getLsbD 18 = false → rbReq.getLsbD 16 = false → rbReq.getLsbD 17 = true →
      runCycle (.ringBuffer rst false rbReq) s = exec (.rbPush (rbReq.setWidth 16)) s) ∧
    (rst = false → rbReq.getLsbD 18 = false → rbReq.getLsbD 16 = false → rbReq.getLsbD 17 = false →
      runCycle (.ringBuffer rst false rbReq) s = exec .rbNop s)

/-- 30_encoding.md R50 and 42_cycle_step.md R86: a cycle of IRDEC does to its RingBuffer what a cycle of the sub-block alone
does with the request the decoder forms for it (R86's form), and stops where that one stops. -/
def Obligations.SubBlockAgreesWithWrapper : Prop :=
  ∀ (s : State) (rst : Bool) (req : Req), s.bitsAccumulated.toNat < 16 →
    (∀ t, runCycle (.top rst false req) s = .next t →
      ∃ u, runCycle (.ringBuffer rst false (subRequest rst req s)) s = .next u ∧
        u.head = t.head ∧ u.tail = t.tail ∧ u.buf = t.buf ∧ u.returned = t.returned) ∧
    (∀ u, runCycle (.ringBuffer rst false (subRequest rst req s)) s = .next u →
      ∃ t, runCycle (.top rst false req) s = .next t)

/-- 42_cycle_step.md R87, second half: every sequence of requestable operations, presented one operation a cycle, runs on the
clocked block as it runs at the operation level. -/
def Obligations.OneOperationPerCycle : Prop :=
  ∀ (ops : List Instr) (s : State), (∀ i ∈ ops, i.requestable = true) →
    Host.Core.run Sys2Proof.core ops.length { s with input := ops.map encode } = runOps ops { s with input := [] }

/-! ### Encoding -/

/-- 30_encoding.md R48: the operation patterns of the top-level request word by mask and match, `now` ignored without an EDGE
and with SETUP, POP and EDGE the only two a word can select together. That a cycle which samples AVAILABLE performs it before its
commands is the model's inference (log 6, DEDUCED from R48, R55 and R84), not R48's words. -/
def Obligations.RequestPatternsSelectOperations : Prop :=
  ∀ req : Req,
    (req &&& 0x400000000 = 0x400000000 ↔ .setup ∈ decodeReq req) ∧
    (req &&& 0x500000000 = 0x100000000 ↔ .pop ∈ decodeReq req) ∧
    (req &&& 0x600000000 = 0x200000000 ↔ .edge (req.setWidth 32) ∈ decodeReq req) ∧
    (req &&& 0x700000000 = 0 ↔ decodeReq req = []) ∧
    (.setup ∈ decodeReq req → decodeReq req = [.setup]) ∧
    (req &&& 0x700000000 = 0x300000000 → decodeReq req = [.pop, .edge (req.setWidth 32)]) ∧
    (decodeReq req = [] → decodeCycle (.top false false req) = [.nop]) ∧
    decodeCycle (.top false true req) = .available :: decodeReq req ∧
    (∀ req' : Req, req &&& 0x700000000 = req' &&& 0x700000000 →
      req.getLsbD 33 = false ∨ req.getLsbD 34 = true → decodeReq req = decodeReq req')

/-- 30_encoding.md R50, its two tables: the operation patterns of the sub-block's request word, `value` ignored without an RB.PUSH
and with RB.INIT. That a cycle which samples RB.AVAILABLE performs it before its commands is the model's inference (log 6, DEDUCED
from R50, R55 and R84), not R50's words. -/
def Obligations.RbRequestPatternsSelectOperations : Prop :=
  ∀ req : RbReq,
    (req &&& 0x40000 = 0x40000 ↔ .rbInit ∈ decodeRbReq req) ∧
    (req &&& 0x50000 = 0x10000 ↔ .rbPop ∈ decodeRbReq req) ∧
    (req &&& 0x60000 = 0x20000 ↔ .rbPush (req.setWidth 16) ∈ decodeRbReq req) ∧
    (req &&& 0x70000 = 0 ↔ decodeRbReq req = []) ∧
    (decodeRbReq req = [] → decodeCycle (.ringBuffer false false req) = [.rbNop]) ∧
    decodeCycle (.ringBuffer false true req) = .rbAvailable :: decodeRbReq req ∧
    (∀ req' : RbReq, req &&& 0x70000 = req' &&& 0x70000 →
      req.getLsbD 17 = false ∨ req.getLsbD 18 = true → decodeRbReq req = decodeRbReq req')

/-- 30_encoding.md R55, on a few words written out by hand: SETUP, `EDGE 22200`, POP, the idle word, RB.INIT, `RB.PUSH 0x10EF`,
RB.POP and the sub-block's idle word. A sanity statement. -/
def Obligations.TraceWordsDecode : Prop :=
  decodeTableWord 40 0x400000000 = some .setup ∧
  decodeTableWord 40 0x2000056B8 = some (.edge 22200) ∧
  decodeTableWord 40 0x100000000 = some .pop ∧
  decodeTableWord 40 0x000000000 = some .nop ∧
  decodeTableWord 24 0x40000 = some .rbInit ∧
  decodeTableWord 24 0x210EF = some (.rbPush 0x10EF) ∧
  decodeTableWord 24 0x10000 = some .rbPop ∧
  decodeTableWord 24 0x00000 = some .rbNop

/-- Decoding and encoding agree: every well-formed cycle of operations, with every operand value, is what its own pins decode
to (30_encoding.md R48, R50, R55). Where a sampled output stands in the sequence is the model's inference (log 6). -/
def Obligations.DecodeOfEncode : Prop :=
  ∀ ops : List Instr, wellFormedCycle ops = true → decodeCycle (encodeCycle ops) = ops

/-- 42_cycle_step.md R87 and 30_encoding.md R53: every cycle's pins, whatever their bits, ask for one of the short sequences of
operations, and only for operations that can be requested. Where a sampled output stands in the sequence is the model's inference
(log 6). -/
def Obligations.EveryCycleIsWellFormed : Prop :=
  ∀ c : Cycle, wellFormedCycle (decodeCycle c) = true ∧ ∀ i ∈ decodeCycle c, i.requestable = true

/-! ### The step -/

/-- A step runs the operations its cycle's pins decode to, in the state with that cycle taken off the input trace; with no cycle
listed it is an idle cycle (log 4); one operation is one exec. -/
def Obligations.StepRunsDecodedCycle : Prop :=
  ∀ s : State,
    (∀ (c : Cycle) (rest : List Cycle), s.input = c :: rest →
      step s = runOps (decodeCycle c) { s with input := rest } ∧
      ∀ i, decodeCycle c = [i] → step s = exec i { s with input := rest }) ∧
    (s.input = [] → step s = .next s)

/-- The words of the operation table reach the machine: a step after a word is presented runs exactly the instruction the
decoder reads from it. -/
def Obligations.PresentedWordRunsItsInstruction : Prop :=
  ∀ (s : State) (nbits w : Nat) (i : Instr), decodeTableWord nbits w = some i →
    step (s.withFetchWord nbits w) = exec i s

/-- No operation touches the model's own environment fields; only AVAILABLE and POP hand anything back, and they add one result
at the end (60_exceptions.md R98: EDGE and SETUP return nothing). -/
def Obligations.OperationsLeaveEnvironment : Prop :=
  ∀ (i : Instr) (s t : State), exec i s = .next t →
    sameEnvironment s t ∧
    (isAvailable i = false → isPop i = false → t.returned = s.returned) ∧
    (isAvailable i = true → t.returned = s.returned ++ [.bit s.available]) ∧
    (isPop i = true → ∃ w, s.rdData = some w ∧ t.returned = s.returned ++ [.word w])

/-! ### Invariants and whole-machine rules -/

/-- The invariant holds after reset. -/
def Obligations.ResetSatisfiesInvariant : Prop := State.reset.Inv

/-- Every step keeps the invariant (10_state.md R14, R22, 40_ringbuffer.md R59 corner case (a)). -/
def Obligations.StepKeepsInvariant : Prop :=
  ∀ s t : State, s.Inv → step s = .next t → t.Inv

/-- 60_exceptions.md R89, R90 and 40_ringbuffer.md R61: the one fault is a POP on an empty buffer; the one refusal of an operation
that can be requested is an EDGE with an illegal count. -/
def Obligations.OnlyEmptyPopFaults : Prop :=
  ∀ (i : Instr) (s : State),
    (∀ r, exec i s = .fault r → r = .popEmpty ∧ isPop i = true ∧ s.head = s.tail) ∧
    (∀ r, exec i s = .refused r → i.requestable = true →
      r = .countOutOfRange ∧ i.setsEdge = true ∧ 16 ≤ s.bitsAccumulated.toNat)

/-- 70_reset_and_hazards.md R109, 60_exceptions.md R89, 41_signal_decoder.md R77: from every state of the invariant, a cycle that
pops only while `available` is 1 completes, whatever its pins. -/
def Obligations.GuardedCycleCompletes : Prop :=
  ∀ s : State, s.Inv → popGuarded (nextCycle s) s = true → ∃ t, step s = .next t

/-- 10_state.md R23, 60_exceptions.md R98: which operation may change which component. The decoder registers change only in EDGE and
SETUP; `head` not in a POP; the array only in a push; `tail` in EDGE and RB.PUSH only from a full buffer. -/
def Obligations.OnlyOwnersChangeState : Prop :=
  ∀ (i : Instr) (s t : State), exec i s = .next t →
    (i.setsEdge = false → i ≠ .setup → sameDecoder s t) ∧
    (i.setsEdge = false → i.setsPush = false → isInit i = false → t.head = s.head) ∧
    (i.setsEdge = false → i.setsPush = false → t.buf = s.buf) ∧
    (isPop i = false → isInit i = false → t.tail ≠ s.tail →
      (i.setsEdge = true ∨ i.setsPush = true) ∧ s.full = true) ∧
    (isAvailable i = true → sameDecoder s t ∧ sameRing s t)

/-- 20_memory.md R32: the accesses to the array. An operation that stores writes the one slot at the old `head`; every other slot,
and every slot for an operation that stores nothing, reads as before. -/
def Obligations.StoresOnlyAtHead : Prop :=
  ∀ (i : Instr) (s t : State), exec i s = .next t →
    (storesWord i s = true →
      t.buf.read s.head.toNat = some (if i.setsEdge then t.inProgressWord else i.valueField) ∧
      sameArrayBut s.head s t ∧ t.head = s.head + 1) ∧
    (storesWord i s = false → sameArray s t)

/-- 10_state.md R18: `available` becomes true only by a push, and false only by the POP that removes the last live entry, by
RB.INIT or by SETUP; it is false after reset. -/
def Obligations.AvailableFlagChanges : Prop :=
  State.reset.available = false ∧ (∀ s : State, s.available = true ↔ s.head ≠ s.tail) ∧
  ∀ (i : Instr) (s t : State), exec i s = .next t →
    (storesWord i s = true → t.available = true) ∧
    (s.available = false → t.available = true → storesWord i s = true) ∧
    (s.available = true → t.available = false → (isPop i = true ∧ s.count = 1) ∨ isInit i = true) ∧
    (isPop i = true → s.count = 1 → t.available = false) ∧
    (isInit i = true → t.available = false)

/-- 10_state.md R20: at most C - 1 = 127 live entries; a push never leaves the buffer empty and writes no live slot; full is a
count of 127. -/
def Obligations.PushNeverOverwritesLiveEntry : Prop :=
  ∀ (v : Word) (s : State), ∃ t, exec (.rbPush v) s = .next t ∧
    t.head ≠ t.tail ∧ t.count = min (s.count + 1) 127 ∧
    s.count ≤ 127 ∧ (s.full = true ↔ s.count = 127) ∧ (s.full = true ↔ s.head + 1 = s.tail) ∧
    s.live s.head = false ∧
    (∀ i : Index, s.live i = true → t.buf.read i.toNat = s.buf.read i.toNat) ∧
    (s.full = true → s.live s.tail = true ∧ t.live s.tail = false ∧ t.tail = s.tail + 1)

/-- 10_state.md R24: a word is immutable once pushed. After any operation a live slot reads the same and is live still, unless it
was the oldest and was popped, or evicted by a push into a full buffer, or unless SETUP or RB.INIT emptied the buffer. -/
def Obligations.LiveWordsAreImmutable : Prop :=
  ∀ (i : Instr) (s t : State) (x : Index), exec i s = .next t → s.live x = true →
    t.buf.read x.toNat = s.buf.read x.toNat ∧
    (t.live x = false →
      (x = s.tail ∧ (isPop i = true ∨ (storesWord i s = true ∧ s.full = true))) ∨ isInit i = true)

/-- 40_ringbuffer.md R62: the occupancy law, for one operation and for k pushes after RB.INIT. -/
def Obligations.OccupancyLaw : Prop :=
  (∀ (v : Word) (s t : State), exec (.rbPush v) s = .next t → t.count = min (s.count + 1) 127) ∧
  (∀ s t : State, exec .rbPop s = .next t → 1 ≤ s.count ∧ t.count = s.count - 1) ∧
  (∀ s t : State, exec .rbInit s = .next t → t.count = 0) ∧
  (∀ s t : State, exec .rbAvailable s = .next t →
    t.count = s.count ∧ t.returned = s.returned ++ [.bit (decide (s.count ≠ 0))]) ∧
  (∀ (s : State) (vs : List Word), ∃ t, runOps (.rbInit :: vs.map .rbPush) s = .next t ∧
    t.count = min vs.length 127 ∧ t.head.toNat = vs.length % 128 ∧
    t.tail.toNat = (if vs.length ≤ 127 then 0 else (vs.length + 1) % 128))

/-! ### The queue and the words -/

/-- 10_state.md R22: the live entries are a queue of at most 127 words: a push adds at the new end and evicts at the old end only
when 127 are there, a POP takes the old end, RB.INIT and SETUP empty it, AVAILABLE tells whether it is empty. -/
def Obligations.RingBufferIsBoundedQueue : Prop :=
  ∀ s : State,
    (∀ v, ∃ t, exec (.rbPush v) s = .next t ∧ t.queue = enqueue s.queue v) ∧
    (∀ w rest, s.queue = w :: rest → ∃ t, exec .pop s = .next t ∧ t.queue = rest ∧
      t.returned = s.returned ++ [.word w]) ∧
    (s.queue = [] → exec .pop s = .fault .popEmpty) ∧
    (∃ t, exec .rbInit s = .next t ∧ t.queue = []) ∧
    (∃ t, exec .setup s = .next t ∧ t.queue = []) ∧
    (s.available = true ↔ s.queue ≠ []) ∧ (s.head = s.tail ↔ s.queue = []) ∧ s.queue.length ≤ 127

/-- 40_ringbuffer.md R63 (a), with the corrected bound: N ≤ 127 pushes into an empty buffer are popped in order, `available` is
true before each of the N pops and false after them. -/
def Obligations.FifoUpToUsableCapacity : Prop :=
  ∀ (s : State) (vs : List Word), s.head = s.tail → vs.length ≤ 127 →
    ∃ t, runOps (vs.map .rbPush ++ vs.flatMap (fun _ => [.rbAvailable, .rbPop]) ++ [.rbAvailable]) s = .next t ∧
      t.returned = s.returned ++ vs.flatMap (fun v => [.bit true, .word v]) ++ [.bit false] ∧
      t.head = t.tail

/-- 40_ringbuffer.md R63 (b), with the corrected numbers: after N ≥ 127 pushes into an empty buffer it holds exactly the last 127
values in order. -/
def Obligations.OverflowKeepsNewest : Prop :=
  ∀ (s : State) (vs : List Word), s.head = s.tail → 127 ≤ vs.length →
    ∃ t, runOps (vs.map .rbPush) s = .next t ∧ t.queue = vs.drop (vs.length - 127)

/-- 30_encoding.md R46, 41_signal_decoder.md R80: sixteen data symbols from a count of 0 push one word, the first symbol in bit 15
and the last in bit 0, whatever the accumulator held before. -/
def Obligations.SixteenSymbolsMakeOneWord : Prop :=
  ∀ (s : State) (nows : List Time), s.bitsAccumulated = 0 → nows.length = 16 →
    (∀ sym ∈ symbolsFrom s.lastEdgeTime nows, sym ≠ .frameReset) →
    ∃ t w, runOps (nows.map .edge) s = .next t ∧ t.bitsAccumulated = 0 ∧
      t.queue = enqueue s.queue w ∧ t.inProgressWord = w ∧
      ∀ k, k < 16 → (w.getLsbD (15 - k) = true ↔ (symbolsFrom s.lastEdgeTime nows)[k]? = some .one)

/-- 41_signal_decoder.md R76 (with R75 and R79): over any sequence of edges from a count of 0, the words pushed are exactly those
the symbols stand for: one for every sixteen data symbols since the last FRAME_RESET or emission. -/
def Obligations.EdgesPushTheWordsOfTheirSymbols : Prop :=
  ∀ (s : State) (nows : List Time), s.bitsAccumulated = 0 →
    ∃ t, runOps (nows.map .edge) s = .next t ∧
      t.queue = (wordsOf [] (symbolsFrom s.lastEdgeTime nows)).foldl enqueue s.queue

/-- 70_reset_and_hazards.md R110: after AVAILABLE has returned 1, no number of EDGE operations makes the following POP fault. -/
def Obligations.CheckedPopSurvivesEdges : Prop :=
  ∀ (s : State) (nows : List Time), s.bitsAccumulated.toNat < 16 → s.available = true →
    ∃ t u, runOps (nows.map .edge) s = .next t ∧ t.available = true ∧ exec .pop t = .next u

/-- 70_reset_and_hazards.md R111, at the operation level: a push between the check and the POP on a full buffer makes the POP return
the second oldest word. -/
def Obligations.EvictionBetweenCheckAndPop : Prop :=
  ∀ (s : State) (now : Time) (oldest second : Word) (rest : List Word),
    s.bitsAccumulated = 15 → classify (now - s.lastEdgeTime) ≠ .frameReset →
    s.full = true → s.queue = oldest :: second :: rest →
    ∃ t, runOps [.edge now, .pop] s = .next t ∧ t.returned = s.returned ++ [.word second]

/-- 93_implementation_defined.md U2: no result depends on what never-written slots hold: from a state of the invariant, other
power-on contents change nothing else of any run. -/
def Obligations.UnwrittenSlotsNeverShow : Prop :=
  ∀ (ops : List Instr) (s t : State) (p : Nat), s.Inv → runOps ops s = .next t →
    runOps ops { s with powerOn := p } = .next { t with powerOn := p }

/-! ### The request inside IRDEC -/

/-- 42_cycle_step.md R86 and 30_encoding.md R50: the request the decoder forms for its RingBuffer, bit by bit. `init` is rst or
req.setup, `pop` is req.pop; `push` is 1 exactly when the cycle performs an EDGE that stores a word, never in a cycle of SETUP or
reset; the word is then the accumulator the EDGE leaves, and without `push` and `init` the cycle writes neither `head` nor `buf`.
R50's form, by the operations selected, has the same `push` and `value`, and in every cycle asks for the same operations (log 17). -/
def Obligations.SubRequestFollowsTheCycle : Prop :=
  ∀ (s : State) (rst : Bool) (req : Req), s.bitsAccumulated.toNat < 16 →
    ((subRequest rst req s).getLsbD 18 = true ↔ .setup ∈ decodeCycle (.top rst false req)) ∧
    ((subRequest rst req s).getLsbD 18 = (rst || req.getLsbD 34)) ∧
    ((subRequest rst req s).getLsbD 17 = true ↔
      .edge (req.setWidth 32) ∈ decodeCycle (.top rst false req) ∧ storesWord (.edge (req.setWidth 32)) s = true) ∧
    ((subRequest rst req s).getLsbD 16 = req.getLsbD 32) ∧
    (∀ t, runCycle (.top rst false req) s = .next t →
      ((subRequest rst req s).getLsbD 17 = true →
        t.buf.read s.head.toNat = some ((subRequest rst req s).setWidth 16) ∧
        t.inProgressWord = (subRequest rst req s).setWidth 16 ∧ t.head = s.head + 1) ∧
      ((subRequest rst req s).getLsbD 17 = false → (subRequest rst req s).getLsbD 18 = false →
        t.buf = s.buf ∧ t.head = s.head)) ∧
    ((selectedSubRequest rst req s).getLsbD 18 = true ↔ req &&& 0x400000000 = 0x400000000) ∧
    ((selectedSubRequest rst req s).getLsbD 17 = (subRequest rst req s).getLsbD 17) ∧
    ((selectedSubRequest rst req s).getLsbD 16 = true ↔ req &&& 0x500000000 = 0x100000000) ∧
    ((selectedSubRequest rst req s).setWidth 16 = (subRequest rst req s).setWidth 16) ∧
    (∀ sample, decodeCycle (.ringBuffer rst sample (selectedSubRequest rst req s)) =
      decodeCycle (.ringBuffer rst sample (subRequest rst req s)))
end

