-- ==== Sys2Proof/Laws/Encoding.lean ====
section
/-! SUPPORT. The fields of a request word built from its fields. -/

namespace Sys2Proof

/-- The `now` field is the low 32 bits. -/
theorem reqNow_eq (req : Req) : reqNow req = req.setWidth 32 := by
  apply BitVec.eq_of_getLsbD_eq
  intro i hi
  simp [reqNow, hi]

/-- The `value` field is the low 16 bits. -/
theorem rbReqValue_eq (req : RbReq) : rbReqValue req = req.setWidth 16 := by
  apply BitVec.eq_of_getLsbD_eq
  intro i hi
  simp [rbReqValue, hi]

section
variable (a b c : Bool) (now : Time) (value : Word)

@[simp] theorem reqSetup_reqWord : reqSetup (reqWord a b c now) = a := by
  cases a <;> cases b <;> cases c <;> simp [reqSetup, reqWord]

@[simp] theorem reqEdge_reqWord : reqEdge (reqWord a b c now) = b := by
  cases a <;> cases b <;> cases c <;> simp [reqEdge, reqWord]

@[simp] theorem reqPop_reqWord : reqPop (reqWord a b c now) = c := by
  cases a <;> cases b <;> cases c <;> simp [reqPop, reqWord]

@[simp] theorem rbReqInit_rbReqWord : rbReqInit (rbReqWord a b c value) = a := by
  cases a <;> cases b <;> cases c <;> simp [rbReqInit, rbReqWord]

@[simp] theorem rbReqPush_rbReqWord : rbReqPush (rbReqWord a b c value) = b := by
  cases a <;> cases b <;> cases c <;> simp [rbReqPush, rbReqWord]

@[simp] theorem rbReqPop_rbReqWord : rbReqPop (rbReqWord a b c value) = c := by
  cases a <;> cases b <;> cases c <;> simp [rbReqPop, rbReqWord]

@[simp] theorem reqNow_reqWord : reqNow (reqWord a b c now) = now := by
  rw [reqNow_eq]
  cases a <;> cases b <;> cases c <;> simp [reqWord, BitVec.setWidth_or]

@[simp] theorem rbReqValue_rbReqWord : rbReqValue (rbReqWord a b c value) = value := by
  rw [rbReqValue_eq]
  cases a <;> cases b <;> cases c <;> simp [rbReqWord, BitVec.setWidth_or]

end

/-- What a top-level request word built from its fields asks for. -/
theorem decodeReq_reqWord (a b c : Bool) (now : Time) :
    decodeReq (reqWord a b c now) =
      if a then [.setup] else (if c then [.pop] else []) ++ (if b then [.edge now] else []) := by
  simp [decodeReq]

/-- What a sub-block request word built from its fields asks for. -/
theorem decodeRbReq_rbReqWord (a b c : Bool) (value : Word) :
    decodeRbReq (rbReqWord a b c value) =
      if a then [.rbInit] else (if c then [.rbPop] else []) ++ (if b then [.rbPush value] else []) := by
  simp [decodeRbReq]

end Sys2Proof
end

