-- ==== Sys2Proof/Laws/Memory.lean ====
section
/-! SUPPORT. The laws of the array: a read after a write, and that a write keeps the canonical form. -/

namespace Sys2Proof.Machine.Memory

@[simp] theorem read_empty (a : Nat) : Memory.read [] a = none := rfl

theorem read_cons (b : Nat) (v : Word) (m : Memory) (a : Nat) :
    Memory.read ((b, v) :: m) a = if b = a then some v else Memory.read m a := rfl

@[simp] theorem read_write_same (m : Memory) (a : Nat) (w : Word) : (Memory.write m a w).read a = some w := by
  induction m with
  | nil => simp [Memory.write, read_cons]
  | cons c m ih =>
    obtain ⟨b, v⟩ := c
    simp only [Memory.write]
    split
    · simp [read_cons]
    · split
      · simp [read_cons]
      · simp only [read_cons, ih]
        rw [if_neg (by omega)]

theorem read_write_ne (m : Memory) {a b : Nat} (w : Word) (h : b ≠ a) : (Memory.write m a w).read b = m.read b := by
  induction m with
  | nil => simp [Memory.write, read_cons, h.symm]
  | cons c m ih =>
    obtain ⟨d, v⟩ := c
    simp only [Memory.write]
    split
    · simp [read_cons, h.symm]
    · split
      · subst_vars; simp [read_cons, h.symm]
      · simp [read_cons, ih]

theorem mem_write {m : Memory} {a : Nat} {w : Word} {c : Nat × Word} (h : c ∈ Memory.write m a w) :
    c = (a, w) ∨ c ∈ m := by
  induction m with
  | nil => simpa [Memory.write] using h
  | cons d m ih =>
    obtain ⟨b, v⟩ := d
    simp only [Memory.write] at h
    split at h
    · simpa using h
    · split at h
      · rcases List.mem_cons.mp h with h | h
        · exact .inl h
        · exact .inr (List.mem_cons_of_mem _ h)
      · rcases List.mem_cons.mp h with h | h
        · exact .inr (h ▸ List.mem_cons_self)
        · exact (ih h).imp_right (List.mem_cons_of_mem _)

theorem write_wf {m : Memory} (hm : m.wf) {a : Nat} (ha : a < Config.capacity) (w : Word) :
    (Memory.write m a w).wf := by
  refine ⟨?_, fun c hc => (mem_write hc).elim (fun h => h ▸ ha) (hm.2 c)⟩
  obtain ⟨hp, -⟩ := hm
  induction m with
  | nil => simp [Memory.write]
  | cons d m ih =>
    obtain ⟨b, v⟩ := d
    simp only [List.map_cons, List.pairwise_cons] at hp
    simp only [Memory.write]
    split
    · rename_i hab
      simp only [List.map_cons, List.pairwise_cons, List.mem_cons]
      refine ⟨?_, hp⟩
      rintro x (rfl | hx)
      · exact hab
      · exact hab.trans (hp.1 x hx)
    · split
      · subst_vars; simpa using hp
      · simp only [List.map_cons, List.pairwise_cons]
        refine ⟨fun x hx => ?_, ih hp.2⟩
        obtain ⟨c, hc, rfl⟩ := List.mem_map.mp hx
        rcases mem_write hc with rfl | hc
        · dsimp only; omega
        · exact hp.1 _ (List.mem_map_of_mem hc)

theorem index_lt_capacity (i : Index) : i.toNat < Config.capacity := i.isLt

end Sys2Proof.Machine.Memory
end

