-- ==== Sys2Proof/Laws/State.lean ====
section
/-! SUPPORT. One lemma per field per writer of a component, so that no proof unfolds a record update. -/

namespace Sys2Proof.Machine.State

@[simp] theorem setLastEdgeTime_lastEdgeTime (s : State) (t : Time) : (s.setLastEdgeTime t).lastEdgeTime = t := rfl
@[simp] theorem setLastEdgeTime_inProgressWord (s : State) (t : Time) : (s.setLastEdgeTime t).inProgressWord = s.inProgressWord := rfl
@[simp] theorem setLastEdgeTime_bitsAccumulated (s : State) (t : Time) : (s.setLastEdgeTime t).bitsAccumulated = s.bitsAccumulated := rfl
@[simp] theorem setLastEdgeTime_head (s : State) (t : Time) : (s.setLastEdgeTime t).head = s.head := rfl
@[simp] theorem setLastEdgeTime_tail (s : State) (t : Time) : (s.setLastEdgeTime t).tail = s.tail := rfl
@[simp] theorem setLastEdgeTime_buf (s : State) (t : Time) : (s.setLastEdgeTime t).buf = s.buf := rfl
@[simp] theorem setLastEdgeTime_input (s : State) (t : Time) : (s.setLastEdgeTime t).input = s.input := rfl
@[simp] theorem setLastEdgeTime_returned (s : State) (t : Time) : (s.setLastEdgeTime t).returned = s.returned := rfl
@[simp] theorem setLastEdgeTime_powerOn (s : State) (t : Time) : (s.setLastEdgeTime t).powerOn = s.powerOn := rfl

@[simp] theorem setInProgressWord_lastEdgeTime (s : State) (w : Word) : (s.setInProgressWord w).lastEdgeTime = s.lastEdgeTime := rfl
@[simp] theorem setInProgressWord_inProgressWord (s : State) (w : Word) : (s.setInProgressWord w).inProgressWord = w := rfl
@[simp] theorem setInProgressWord_bitsAccumulated (s : State) (w : Word) : (s.setInProgressWord w).bitsAccumulated = s.bitsAccumulated := rfl
@[simp] theorem setInProgressWord_head (s : State) (w : Word) : (s.setInProgressWord w).head = s.head := rfl
@[simp] theorem setInProgressWord_tail (s : State) (w : Word) : (s.setInProgressWord w).tail = s.tail := rfl
@[simp] theorem setInProgressWord_buf (s : State) (w : Word) : (s.setInProgressWord w).buf = s.buf := rfl
@[simp] theorem setInProgressWord_input (s : State) (w : Word) : (s.setInProgressWord w).input = s.input := rfl
@[simp] theorem setInProgressWord_returned (s : State) (w : Word) : (s.setInProgressWord w).returned = s.returned := rfl
@[simp] theorem setInProgressWord_powerOn (s : State) (w : Word) : (s.setInProgressWord w).powerOn = s.powerOn := rfl

@[simp] theorem setBitsAccumulated_lastEdgeTime (s : State) (n : Count) : (s.setBitsAccumulated n).lastEdgeTime = s.lastEdgeTime := rfl
@[simp] theorem setBitsAccumulated_inProgressWord (s : State) (n : Count) : (s.setBitsAccumulated n).inProgressWord = s.inProgressWord := rfl
@[simp] theorem setBitsAccumulated_bitsAccumulated (s : State) (n : Count) : (s.setBitsAccumulated n).bitsAccumulated = n := rfl
@[simp] theorem setBitsAccumulated_head (s : State) (n : Count) : (s.setBitsAccumulated n).head = s.head := rfl
@[simp] theorem setBitsAccumulated_tail (s : State) (n : Count) : (s.setBitsAccumulated n).tail = s.tail := rfl
@[simp] theorem setBitsAccumulated_buf (s : State) (n : Count) : (s.setBitsAccumulated n).buf = s.buf := rfl
@[simp] theorem setBitsAccumulated_input (s : State) (n : Count) : (s.setBitsAccumulated n).input = s.input := rfl
@[simp] theorem setBitsAccumulated_returned (s : State) (n : Count) : (s.setBitsAccumulated n).returned = s.returned := rfl
@[simp] theorem setBitsAccumulated_powerOn (s : State) (n : Count) : (s.setBitsAccumulated n).powerOn = s.powerOn := rfl

@[simp] theorem setHead_lastEdgeTime (s : State) (i : Index) : (s.setHead i).lastEdgeTime = s.lastEdgeTime := rfl
@[simp] theorem setHead_inProgressWord (s : State) (i : Index) : (s.setHead i).inProgressWord = s.inProgressWord := rfl
@[simp] theorem setHead_bitsAccumulated (s : State) (i : Index) : (s.setHead i).bitsAccumulated = s.bitsAccumulated := rfl
@[simp] theorem setHead_head (s : State) (i : Index) : (s.setHead i).head = i := rfl
@[simp] theorem setHead_tail (s : State) (i : Index) : (s.setHead i).tail = s.tail := rfl
@[simp] theorem setHead_buf (s : State) (i : Index) : (s.setHead i).buf = s.buf := rfl
@[simp] theorem setHead_input (s : State) (i : Index) : (s.setHead i).input = s.input := rfl
@[simp] theorem setHead_returned (s : State) (i : Index) : (s.setHead i).returned = s.returned := rfl
@[simp] theorem setHead_powerOn (s : State) (i : Index) : (s.setHead i).powerOn = s.powerOn := rfl

@[simp] theorem setTail_lastEdgeTime (s : State) (i : Index) : (s.setTail i).lastEdgeTime = s.lastEdgeTime := rfl
@[simp] theorem setTail_inProgressWord (s : State) (i : Index) : (s.setTail i).inProgressWord = s.inProgressWord := rfl
@[simp] theorem setTail_bitsAccumulated (s : State) (i : Index) : (s.setTail i).bitsAccumulated = s.bitsAccumulated := rfl
@[simp] theorem setTail_head (s : State) (i : Index) : (s.setTail i).head = s.head := rfl
@[simp] theorem setTail_tail (s : State) (i : Index) : (s.setTail i).tail = i := rfl
@[simp] theorem setTail_buf (s : State) (i : Index) : (s.setTail i).buf = s.buf := rfl
@[simp] theorem setTail_input (s : State) (i : Index) : (s.setTail i).input = s.input := rfl
@[simp] theorem setTail_returned (s : State) (i : Index) : (s.setTail i).returned = s.returned := rfl
@[simp] theorem setTail_powerOn (s : State) (i : Index) : (s.setTail i).powerOn = s.powerOn := rfl

@[simp] theorem setSlot_lastEdgeTime (s : State) (i : Index) (w : Word) : (s.setSlot i w).lastEdgeTime = s.lastEdgeTime := rfl
@[simp] theorem setSlot_inProgressWord (s : State) (i : Index) (w : Word) : (s.setSlot i w).inProgressWord = s.inProgressWord := rfl
@[simp] theorem setSlot_bitsAccumulated (s : State) (i : Index) (w : Word) : (s.setSlot i w).bitsAccumulated = s.bitsAccumulated := rfl
@[simp] theorem setSlot_head (s : State) (i : Index) (w : Word) : (s.setSlot i w).head = s.head := rfl
@[simp] theorem setSlot_tail (s : State) (i : Index) (w : Word) : (s.setSlot i w).tail = s.tail := rfl
@[simp] theorem setSlot_buf (s : State) (i : Index) (w : Word) : (s.setSlot i w).buf = s.buf.write i.toNat w := rfl
@[simp] theorem setSlot_input (s : State) (i : Index) (w : Word) : (s.setSlot i w).input = s.input := rfl
@[simp] theorem setSlot_returned (s : State) (i : Index) (w : Word) : (s.setSlot i w).returned = s.returned := rfl
@[simp] theorem setSlot_powerOn (s : State) (i : Index) (w : Word) : (s.setSlot i w).powerOn = s.powerOn := rfl

@[simp] theorem setInput_lastEdgeTime (s : State) (cs : List Cycle) : (s.setInput cs).lastEdgeTime = s.lastEdgeTime := rfl
@[simp] theorem setInput_inProgressWord (s : State) (cs : List Cycle) : (s.setInput cs).inProgressWord = s.inProgressWord := rfl
@[simp] theorem setInput_bitsAccumulated (s : State) (cs : List Cycle) : (s.setInput cs).bitsAccumulated = s.bitsAccumulated := rfl
@[simp] theorem setInput_head (s : State) (cs : List Cycle) : (s.setInput cs).head = s.head := rfl
@[simp] theorem setInput_tail (s : State) (cs : List Cycle) : (s.setInput cs).tail = s.tail := rfl
@[simp] theorem setInput_buf (s : State) (cs : List Cycle) : (s.setInput cs).buf = s.buf := rfl
@[simp] theorem setInput_input (s : State) (cs : List Cycle) : (s.setInput cs).input = cs := rfl
@[simp] theorem setInput_returned (s : State) (cs : List Cycle) : (s.setInput cs).returned = s.returned := rfl
@[simp] theorem setInput_powerOn (s : State) (cs : List Cycle) : (s.setInput cs).powerOn = s.powerOn := rfl

@[simp] theorem giveBack_lastEdgeTime (s : State) (r : Result) : (s.giveBack r).lastEdgeTime = s.lastEdgeTime := rfl
@[simp] theorem giveBack_inProgressWord (s : State) (r : Result) : (s.giveBack r).inProgressWord = s.inProgressWord := rfl
@[simp] theorem giveBack_bitsAccumulated (s : State) (r : Result) : (s.giveBack r).bitsAccumulated = s.bitsAccumulated := rfl
@[simp] theorem giveBack_head (s : State) (r : Result) : (s.giveBack r).head = s.head := rfl
@[simp] theorem giveBack_tail (s : State) (r : Result) : (s.giveBack r).tail = s.tail := rfl
@[simp] theorem giveBack_buf (s : State) (r : Result) : (s.giveBack r).buf = s.buf := rfl
@[simp] theorem giveBack_input (s : State) (r : Result) : (s.giveBack r).input = s.input := rfl
@[simp] theorem giveBack_returned (s : State) (r : Result) : (s.giveBack r).returned = s.returned ++ [r] := rfl
@[simp] theorem giveBack_powerOn (s : State) (r : Result) : (s.giveBack r).powerOn = s.powerOn := rfl

end Sys2Proof.Machine.State
end

