-- ==== Sys2Proof/Laws/Ops.lean ====
section
/-! SUPPORT. One lemma per shared operation, saying once everything it can do. -/

namespace Sys2Proof.Machine

theorem ringInit_eq (s : State) : ringInit s = { s with head := 0, tail := 0 } := rfl

theorem ringPush_eq (v : Word) (s : State) :
    ringPush v s =
      { s with
        buf := s.buf.write s.head.toNat v
        head := s.head + 1
        tail := if s.head + 1 = s.tail then s.tail + 1 else s.tail } := by
  change (if s.head + 1 = s.tail then _ else _) = _
  split <;> rfl

theorem ringPop_empty {s : State} (h : s.head = s.tail) : ringPop s = .fault .popEmpty := if_pos h

theorem ringPop_nonempty {s : State} (h : s.head ≠ s.tail) :
    ringPop s =
      .next { s with tail := s.tail + 1, returned := s.returned ++ [.word (s.slot s.tail)] } :=
  if_neg h

/-- Everything a pop can answer. -/
theorem ringPop_cases (s : State) :
    (s.head = s.tail ∧ ringPop s = .fault .popEmpty) ∨
    (s.head ≠ s.tail ∧ ringPop s =
      .next { s with tail := s.tail + 1, returned := s.returned ++ [.word (s.slot s.tail)] }) := by
  by_cases h : s.head = s.tail
  · exact .inl ⟨h, ringPop_empty h⟩
  · exact .inr ⟨h, ringPop_nonempty h⟩

theorem ringAvailable_eq (s : State) :
    ringAvailable s = { s with returned := s.returned ++ [.bit s.available] } := rfl

theorem acceptBit_eq (b : Bool) (s : State) :
    acceptBit b s =
      { s with inProgressWord := shiftIn s.inProgressWord b, bitsAccumulated := s.bitsAccumulated + 1 } := rfl

/-- Everything an EDGE with a given symbol can answer. -/
theorem edgeWith_cases (sym : Symbol) (now : Time) (s : State) :
    (s.bitsAccumulated.toNat < 16 ∧
      edgeWith sym now s = .next (emission (transition sym (s.setLastEdgeTime now)))) ∨
    (16 ≤ s.bitsAccumulated.toNat ∧ edgeWith sym now s = .refused .countOutOfRange) := by
  by_cases h : s.bitsAccumulated.toNat < 16
  · exact .inl ⟨h, if_pos h⟩
  · exact .inr ⟨by omega, if_neg h⟩

/-- A case of EDGE runs exactly where its symbol is the interval's. -/
theorem edgeCase_selected {sym : Symbol} {now : Time} {s : State} (h : classify (s.elapsed now) = sym) :
    edgeCase sym now s = edgeWith sym now s := if_pos h

theorem edgeCase_not_selected {sym : Symbol} {now : Time} {s : State} (h : classify (s.elapsed now) ≠ sym) :
    edgeCase sym now s = .refused .caseNotSelected := if_neg h

theorem emission_of_lt {s : State} (h : s.bitsAccumulated.toNat ≠ 16) : emission s = s := if_neg h

theorem emission_of_sixteen {s : State} (h : s.bitsAccumulated.toNat = 16) :
    emission s = (ringPush s.inProgressWord s).setBitsAccumulated 0 := if_pos h

theorem runOps_cons (i : Instr) (is : List Instr) (s : State) :
    runOps (i :: is) s =
      match exec i s with
      | .next t => runOps is t
      | .fault r => .fault r
      | .refused r => .refused r := rfl

theorem runOps_singleton (i : Instr) (s : State) : runOps [i] s = exec i s := by
  rw [runOps_cons]
  cases exec i s <;> rfl

/-- Two runs, one after the other. -/
theorem runOps_append (is js : List Instr) (s : State) :
    runOps (is ++ js) s =
      match runOps is s with
      | .next t => runOps js t
      | .fault r => .fault r
      | .refused r => .refused r := by
  induction is generalizing s with
  | nil => rfl
  | cons i is ih =>
    simp only [List.cons_append, runOps_cons]
    cases exec i s with
    | next t => exact ih t
    | fault r => rfl
    | refused r => rfl

end Sys2Proof.Machine
end

