-- ==== Sys2Proof/Laws/Exec.lean ====
section
/-! SUPPORT. What an operation and a cycle can do, said once (inversion lemmas), for proofs to cite instead of unfolding `exec`. -/

namespace Sys2Proof.Machine

/-! ### The two shapes of next state -/

/-- The state after a push of `v` (R58). -/
def pushed (v : Word) (s : State) : State :=
  { s with
    buf := s.buf.write s.head.toNat v
    head := s.head + 1
    tail := if s.head + 1 = s.tail then s.tail + 1 else s.tail }

/-- The state after a pop of a non-empty buffer (R59). -/
def popped (s : State) : State :=
  { s with tail := s.tail + 1, returned := s.returned ++ [.word (s.slot s.tail)] }

/-- The symbol of a data bit. -/
def dataSymbol (b : Bool) : Symbol := if b then .one else .zero

/-- The state after a data bit that is not the sixteenth (R68, R69). -/
def counted (b : Bool) (now : Time) (s : State) : State :=
  { s with
    lastEdgeTime := now
    inProgressWord := shiftIn s.inProgressWord b
    bitsAccumulated := s.bitsAccumulated + 1 }

/-- The decoder registers after the sixteenth data bit (R71). -/
def completed (b : Bool) (now : Time) (s : State) : State :=
  { s with
    lastEdgeTime := now
    inProgressWord := shiftIn s.inProgressWord b
    bitsAccumulated := 0 }

theorem next_inj {s t : State} (h : (Host.Outcome.next s : Outcome) = .next t) : s = t := by injection h

/-! ### Counts and symbols -/

theorem count_succ_toNat {n : Count} (h : n.toNat < 16) : (n + 1).toNat = n.toNat + 1 := by
  have h1 : (1 : Count).toNat = 1 := rfl
  rw [BitVec.toNat_add, h1]
  omega

theorem classify_of_lt {e : Time} (h : e.toNat < 1200) : classify e = .zero := if_pos h

theorem classify_of_between {e : Time} (h : 1200 ≤ e.toNat) (h' : e.toNat < 2400) : classify e = .one := by
  unfold classify Config.tOne Config.tReset
  rw [if_neg (by omega), if_pos h']

theorem classify_of_ge {e : Time} (h : 2400 ≤ e.toNat) : classify e = .frameReset := by
  unfold classify Config.tOne Config.tReset
  rw [if_neg (by omega), if_neg (by omega)]

/-- A symbol is FRAME_RESET or that of a data bit. -/
theorem symbol_cases (sym : Symbol) : sym = .frameReset ∨ ∃ b, sym = dataSymbol b := by
  cases sym
  · exact .inr ⟨false, rfl⟩
  · exact .inr ⟨true, rfl⟩
  · exact .inl rfl

theorem dataSymbol_ne (b : Bool) : dataSymbol b ≠ .frameReset := by cases b <;> decide

/-! ### EDGE -/

theorem transition_data (b : Bool) (now : Time) (s : State) :
    transition (dataSymbol b) (s.setLastEdgeTime now) = counted b now s := by cases b <;> rfl

/-- Everything an EDGE can do from a legal count: complete a word, count a bit, or restart the count. -/
theorem edge_cases (now : Time) {s : State} (h : s.bitsAccumulated.toNat < 16) :
    (∃ b, classify (now - s.lastEdgeTime) = dataSymbol b ∧ s.bitsAccumulated.toNat = 15 ∧
      exec (.edge now) s = .next (pushed (shiftIn s.inProgressWord b) (completed b now s))) ∨
    (∃ b, classify (now - s.lastEdgeTime) = dataSymbol b ∧ s.bitsAccumulated.toNat < 15 ∧
      exec (.edge now) s = .next (counted b now s)) ∨
    (classify (now - s.lastEdgeTime) = .frameReset ∧
      exec (.edge now) s = .next { s with lastEdgeTime := now, bitsAccumulated := 0 }) := by
  have he : exec (.edge now) s =
      .next (emission (transition (classify (now - s.lastEdgeTime)) (s.setLastEdgeTime now))) := if_pos h
  rcases symbol_cases (classify (now - s.lastEdgeTime)) with hc | ⟨b, hc⟩
  · refine .inr (.inr ⟨hc, ?_⟩)
    rw [he, hc, emission_of_lt (by simp [transition])]
    rfl
  · rw [he, hc, transition_data]
    have hn : (counted b now s).bitsAccumulated.toNat = s.bitsAccumulated.toNat + 1 := count_succ_toNat h
    by_cases h15 : s.bitsAccumulated.toNat = 15
    · refine .inl ⟨b, rfl, h15, ?_⟩
      rw [emission_of_sixteen (by omega), ringPush_eq]
      rfl
    · refine .inr (.inl ⟨b, rfl, by omega, ?_⟩)
      rw [emission_of_lt (by omega)]

/-- An EDGE with an illegal count is refused. -/
theorem edge_illegal (now : Time) {s : State} (h : 16 ≤ s.bitsAccumulated.toNat) :
    exec (.edge now) s = .refused .countOutOfRange := if_neg (by simp only [Config.bitsPerWord]; omega)

/-- A case of EDGE that runs does what the EDGE does, in the states where its symbol is the interval's. -/
theorem edgeCase_next {sym : Symbol} {now : Time} {s t : State} (h : edgeCase sym now s = .next t) :
    classify (now - s.lastEdgeTime) = sym ∧ exec (.edge now) s = .next t := by
  by_cases hc : classify (s.elapsed now) = sym
  · rw [edgeCase_selected hc] at h
    refine ⟨hc, ?_⟩
    rw [← h, ← hc]
    rfl
  · rw [edgeCase_not_selected hc] at h
    cases h

/-! ### Any operation -/

/-- Everything an operation that completes can have done. -/
theorem exec_next_cases {i : Instr} {s t : State} (h : exec i s = .next t) :
    (i = .rbInit ∧ t = { s with head := 0, tail := 0 }) ∨
    (i = .setup ∧ t = { s with
      lastEdgeTime := 0, bitsAccumulated := 0, inProgressWord := 0, head := 0, tail := 0 }) ∨
    (isPop i = true ∧ s.head ≠ s.tail ∧ t = popped s) ∨
    (isAvailable i = true ∧ t = { s with returned := s.returned ++ [.bit s.available] }) ∨
    ((i = .nop ∨ i = .rbNop) ∧ t = s) ∨
    (∃ v, i = .rbPush v ∧ t = pushed v s) ∨
    (i.setsEdge = true ∧ s.bitsAccumulated.toNat < 16 ∧ exec (.edge i.nowField) s = .next t) := by
  have legal : ∀ {now}, exec (.edge now) s = .next t → s.bitsAccumulated.toNat < 16 := by
    intro now h
    by_cases hb : s.bitsAccumulated.toNat < 16
    · exact hb
    · rw [edge_illegal now (by omega)] at h; cases h
  have pop : ringPop s = .next t → s.head ≠ s.tail ∧ t = popped s := by
    intro h
    rcases ringPop_cases s with ⟨-, h'⟩ | ⟨hn, h'⟩
    · cases h'.symm.trans h
    · exact ⟨hn, next_inj (h.symm.trans h')⟩
  cases i with
  | rbInit => exact .inl ⟨rfl, next_inj h.symm⟩
  | setup => exact .inr (.inl ⟨rfl, next_inj h.symm⟩)
  | rbPop => exact .inr (.inr (.inl ⟨rfl, pop h⟩))
  | pop => exact .inr (.inr (.inl ⟨rfl, pop h⟩))
  | rbAvailable => exact .inr (.inr (.inr (.inl ⟨rfl, next_inj h.symm⟩)))
  | available => exact .inr (.inr (.inr (.inl ⟨rfl, next_inj h.symm⟩)))
  | nop => exact .inr (.inr (.inr (.inr (.inl ⟨.inl rfl, next_inj h.symm⟩))))
  | rbNop => exact .inr (.inr (.inr (.inr (.inl ⟨.inr rfl, next_inj h.symm⟩))))
  | rbPush v =>
    refine .inr (.inr (.inr (.inr (.inr (.inl ⟨v, rfl, ?_⟩)))))
    exact (next_inj h.symm).trans (ringPush_eq v s)
  | edge now => exact .inr (.inr (.inr (.inr (.inr (.inr ⟨rfl, legal h, h⟩)))))
  | edgeZero now =>
    exact .inr (.inr (.inr (.inr (.inr (.inr ⟨rfl, legal (edgeCase_next h).2, (edgeCase_next h).2⟩)))))
  | edgeOne now =>
    exact .inr (.inr (.inr (.inr (.inr (.inr ⟨rfl, legal (edgeCase_next h).2, (edgeCase_next h).2⟩)))))
  | edgeFrameReset now =>
    exact .inr (.inr (.inr (.inr (.inr (.inr ⟨rfl, legal (edgeCase_next h).2, (edgeCase_next h).2⟩)))))

/-! ### One cycle -/

/-- A cycle of IRDEC whose output is not sampled, by its command bits. -/
theorem runCycle_top (s : State) (rst : Bool) (req : Req) :
    runCycle (.top rst false req) s =
      if rst || req.getLsbD 34 then exec .setup s else
      match req.getLsbD 32, req.getLsbD 33 with
      | false, false => .next s
      | true, false => exec .pop s
      | false, true => exec (.edge (req.setWidth 32)) s
      | true, true => runOps [.pop, .edge (req.setWidth 32)] s := by
  unfold runCycle decodeCycle decodeReq
  simp only [reqNow_eq]
  unfold reqSetup reqEdge reqPop
  cases rst <;> cases req.getLsbD 34 <;> cases req.getLsbD 32 <;> cases req.getLsbD 33 <;>
    simp [cycleOps, runOps_singleton, exec, execNop]

/-- A cycle of the sub-block alone whose output is not sampled, by its command bits. -/
theorem runCycle_ringBuffer (s : State) (rst : Bool) (rbReq : RbReq) :
    runCycle (.ringBuffer rst false rbReq) s =
      if rst || rbReq.getLsbD 18 then exec .rbInit s else
      match rbReq.getLsbD 16, rbReq.getLsbD 17 with
      | false, false => .next s
      | true, false => exec .rbPop s
      | false, true => exec (.rbPush (rbReq.setWidth 16)) s
      | true, true => runOps [.rbPop, .rbPush (rbReq.setWidth 16)] s := by
  unfold runCycle decodeCycle decodeRbReq
  simp only [rbReqValue_eq]
  unfold rbReqInit rbReqPush rbReqPop
  cases rst <;> cases rbReq.getLsbD 18 <;> cases rbReq.getLsbD 16 <;> cases rbReq.getLsbD 17 <;>
    simp [cycleOps, runOps_singleton, exec, execRbNop]

/-! ### The sub-block's request, one lemma per field of each form -/

theorem subRequest_init (rst : Bool) (req : Req) (s : State) :
    (subRequest rst req s).getLsbD 18 = (rst || req.getLsbD 34) := rbReqInit_rbReqWord _ _ _ _

theorem subRequest_push (rst : Bool) (req : Req) (s : State) :
    (subRequest rst req s).getLsbD 17 = cyclePushes rst req s := rbReqPush_rbReqWord _ _ _ _

theorem subRequest_pop (rst : Bool) (req : Req) (s : State) :
    (subRequest rst req s).getLsbD 16 = req.getLsbD 32 := rbReqPop_rbReqWord _ _ _ _

theorem subRequest_value (rst : Bool) (req : Req) (s : State) :
    (subRequest rst req s).setWidth 16 = shiftedWord req s := by
  rw [← rbReqValue_eq]
  exact rbReqValue_rbReqWord _ _ _ _

theorem selectedSubRequest_init (rst : Bool) (req : Req) (s : State) :
    (selectedSubRequest rst req s).getLsbD 18 = req.getLsbD 34 := rbReqInit_rbReqWord _ _ _ _

theorem selectedSubRequest_push (rst : Bool) (req : Req) (s : State) :
    (selectedSubRequest rst req s).getLsbD 17 = cyclePushes rst req s := rbReqPush_rbReqWord _ _ _ _

theorem selectedSubRequest_pop (rst : Bool) (req : Req) (s : State) :
    (selectedSubRequest rst req s).getLsbD 16 = (!req.getLsbD 34 && req.getLsbD 32) := rbReqPop_rbReqWord _ _ _ _

theorem selectedSubRequest_value (rst : Bool) (req : Req) (s : State) :
    (selectedSubRequest rst req s).setWidth 16 = shiftedWord req s := by
  rw [← rbReqValue_eq]
  exact rbReqValue_rbReqWord _ _ _ _

end Sys2Proof.Machine
end

