-- ==== Sys2Proof/Laws/PerInstr.lean ====
section
/-! SUPPORT. The per-instruction family RoundTrip: an operation that can be requested is the one its own request decodes to
(30_encoding.md R55). -/

namespace Sys2Proof.Laws.RoundTrip

/-- The round trip of one operation presented in a cycle of its own. -/
def Statement (i : Instr) : Prop := i.requestable = true → decodeCycle (encode i) = [i]

theorem rbInit : Statement .rbInit := fun _ => rfl

theorem rbPush (value : Word) : Statement (.rbPush value) := fun _ => by
  have h : encode (.rbPush value) = .ringBuffer false false (rbReqWord false true false value) := rfl
  rw [h]
  simp [decodeCycle, decodeRbReq_rbReqWord, cycleOps]

theorem rbPop : Statement .rbPop := fun _ => rfl

theorem rbAvailable : Statement .rbAvailable := fun _ => rfl

theorem rbNop : Statement .rbNop := fun _ => rfl

theorem setup : Statement .setup := fun _ => rfl

theorem edge (now : Time) : Statement (.edge now) := fun _ => by
  have h : encode (.edge now) = .top false false (reqWord false true false now) := rfl
  rw [h]
  simp [decodeCycle, decodeReq_reqWord, cycleOps]

theorem edgeZero (now : Time) : Statement (.edgeZero now) := fun h => nomatch h

theorem edgeOne (now : Time) : Statement (.edgeOne now) := fun h => nomatch h

theorem edgeFrameReset (now : Time) : Statement (.edgeFrameReset now) := fun h => nomatch h

theorem available : Statement .available := fun _ => rfl

theorem pop : Statement .pop := fun _ => rfl

theorem nop : Statement .nop := fun _ => rfl

end Sys2Proof.Laws.RoundTrip
end

