-- ==== Sys2Proof/Laws/Ring.lean ====
section
/-! SUPPORT. Arithmetic of the ring (10_state.md R19, R20): the count, the live range, and what a push does to them. -/

namespace Sys2Proof.Machine

theorem count_lt (s : State) : s.count < 128 := (s.head - s.tail).isLt

theorem tail_add_count (s : State) : s.tail + BitVec.ofNat 7 s.count = s.head := by
  simp only [State.count, BitVec.ofNat_toNat, BitVec.setWidth_eq]
  bv_omega

theorem full_iff_count (s : State) : s.head + 1 = s.tail ↔ s.count = 127 := by
  simp only [State.count]
  bv_omega

theorem empty_iff_count (s : State) : s.head = s.tail ↔ s.count = 0 := by
  simp only [State.count]
  bv_omega

theorem available_iff (s : State) : s.available = true ↔ s.head ≠ s.tail := by simp [State.available]

theorem available_false_iff (s : State) : s.available = false ↔ s.head = s.tail := by simp [State.available]

theorem live_iff (s : State) (i : Index) : s.live i = true ↔ (i - s.tail).toNat < s.count := by simp [State.live]

/-- R19: `buf[head]` is never a live entry. -/
theorem head_not_live (s : State) : s.live s.head = false := by simp [State.live, State.count]

/-- The k-th live entry is not at `head`. -/
theorem entry_ne_head (s : State) (k : Nat) (h : k < s.count) : s.tail + BitVec.ofNat 7 k ≠ s.head := by
  have := count_lt s
  simp only [State.count] at *
  bv_omega

theorem pushed_count (v : Word) (s : State) : (pushed v s).count = min (s.count + 1) 127 := by
  have := count_lt s
  by_cases h : s.head + 1 = s.tail
  · have h2 := (full_iff_count s).1 h
    have h3 : s.tail - (s.tail + 1) = 127 := by bv_omega
    simp only [pushed, State.count, h, if_true] at *
    rw [h3, h2]
    rfl
  · have h2 : s.count ≠ 127 := fun h' => h ((full_iff_count s).2 h')
    simp only [pushed, State.count, h, if_false] at *
    bv_omega

theorem popped_count (s : State) (h : s.head ≠ s.tail) : (popped s).count = s.count - 1 := by
  simp only [popped, State.count]
  bv_omega

theorem index_toNat_ne {i j : Index} (h : i ≠ j) : i.toNat ≠ j.toNat := fun h' => h (BitVec.eq_of_toNat_eq h')

theorem pushed_slot_ne (v : Word) (s : State) (x : Index) (h : x ≠ s.head) : (pushed v s).slot x = s.slot x := by
  simp only [State.slot, pushed, Memory.read_write_ne _ _ (index_toNat_ne h)]

theorem pushed_slot_head (v : Word) (s : State) : (pushed v s).slot s.head = v := by
  simp only [State.slot, pushed, Memory.read_write_same, Option.getD_some]

theorem exec_rbPush (v : Word) (s : State) : exec (.rbPush v) s = .next (pushed v s) :=
  congrArg Host.Outcome.next (ringPush_eq v s)

theorem exec_pop_nonempty {s : State} (h : s.head ≠ s.tail) : exec .pop s = .next (popped s) := ringPop_nonempty h

end Sys2Proof.Machine
end

