-- ==== Sys2Proof/Laws/Run.lean ====
section
/-! SUPPORT. Runs of several steps: how `Host.Core.run` of this machine begins. -/

namespace Sys2Proof.Machine

theorem run_succ_of (M : Host.Core) (n : Nat) (s : M.State) : M.run (n + 1) s =
    match M.step s with
    | .next t => M.run n t
    | .fault r => .fault r
    | .refused r => .refused r := rfl

theorem run_of_next (n : Nat) {s t : State} (h : step s = .next t) :
    Host.Core.run core (n + 1) s = Host.Core.run core n t := by
  have e := run_succ_of core n s
  rw [show core.step s = .next t from h] at e
  exact e

theorem run_of_fault (n : Nat) {s : State} {r : Fault} (h : step s = .fault r) :
    Host.Core.run core (n + 1) s = .fault r := by
  have e := run_succ_of core n s
  rw [show core.step s = .fault r from h] at e
  exact e

theorem run_of_refused (n : Nat) {s : State} {r : Refusal} (h : step s = .refused r) :
    Host.Core.run core (n + 1) s = .refused r := by
  have e := run_succ_of core n s
  rw [show core.step s = .refused r from h] at e
  exact e

/-- A step whose cycle asks for one operation is that operation. -/
theorem step_of_decode {s : State} {c : Cycle} {rest : List Cycle} {i : Instr} (hs : s.input = c :: rest)
    (hc : decodeCycle c = [i]) : step s = exec i (s.setInput rest) := by
  have h : step s = runOps (decodeCycle (s.input.headD idleCycle)) (s.setInput s.input.tail) := rfl
  rw [h, hs, List.headD_cons, List.tail_cons, hc, runOps_singleton]

end Sys2Proof.Machine
end

