-- ==== Sys2Proof/Tests/Slice0.lean ====
section
/-! SUPPORT. The model's own tests: expected values from spec/30_encoding.md and spec/95_test_vectors.md, then for every statement
that has hypotheses a witness that meets them. -/

namespace Sys2Proof.Tests

open Sys2Proof Sys2Proof.Machine

/-! ### Helpers -/

/-- A state written in the order of 95_test_vectors.md: last, ipw, bits, head, tail, buf. -/
def mk (last : Time) (ipw : Word) (bits : Count) (head tail : Index) (buf : Memory) : State :=
  { State.reset with
    lastEdgeTime := last, inProgressWord := ipw, bitsAccumulated := bits, head := head, tail := tail, buf := buf }

/-- The outcome is a next state that satisfies `p`. -/
def ends (o : Outcome) (p : State → Bool) : Bool :=
  match o with
  | .next t => p t
  | _ => false

/-- The decoder registers of a state: last, ipw, bits. -/
def regs (s : State) : Time × Word × Count := (s.lastEdgeTime, s.inProgressWord, s.bitsAccumulated)

/-- The ring of a state: head, tail, buf. -/
def ring (s : State) : Index × Index × Memory := (s.head, s.tail, s.buf)

/-! ### What WellFormed refuses -/

theorem test_wf_refuses_nothing_at_all : wellFormedCycle [] = false := by decide
theorem test_wf_refuses_edge_before_pop : wellFormedCycle [.edge 0, .pop] = false := by decide
theorem test_wf_refuses_edge_with_setup : wellFormedCycle [.setup, .edge 0] = false := by decide
theorem test_wf_refuses_two_pops : wellFormedCycle [.pop, .pop] = false := by decide
theorem test_wf_refuses_push_before_pop : wellFormedCycle [.rbPush 1, .rbPop] = false := by decide
theorem test_wf_refuses_both_layers : wellFormedCycle [.pop, .rbPush 1] = false := by decide
theorem test_wf_refuses_late_sample : wellFormedCycle [.pop, .available] = false := by decide
theorem test_wf_refuses_case_of_edge : wellFormedCycle [.edgeZero 0] = false := by decide
theorem test_cases_of_edge_not_requestable : Instr.requestable (.edgeZero 1) = false ∧
    Instr.requestable (.edgeOne 1) = false ∧ Instr.requestable (.edgeFrameReset 1) = false := by decide
theorem test_wf_accepts_pop_and_edge : wellFormedCycle [.available, .pop, .edge 7] = true := by decide

/-! ### Decoding: words from R48, R50 and R55 -/

/-- R55: SETUP is 0x4_0000_0000. -/
theorem test_decode_setup : decodeReq 0x400000000 = [.setup] := by decide
/-- 95_test_vectors.md P1 step 18: EDGE 22200 is 0x2000056B8. -/
theorem test_decode_edge : decodeReq 0x2000056B8 = [.edge 22200] := by decide
/-- R55: POP is 0x1_0000_0000. -/
theorem test_decode_pop : decodeReq 0x100000000 = [.pop] := by decide
/-- V-DEC-17: no command bit, `now` ignored. -/
theorem test_decode_nop : decodeCycle (.top false false 0x0DEADBEEF) = [.nop] := by decide
/-- R55: 0x0_0000_0000 with the output sampled. -/
theorem test_decode_available : decodeCycle (.top false true 0) = [.available] := by decide
/-- R55: RB.INIT is 0x4_0000. -/
theorem test_decode_rbInit : decodeRbReq 0x40000 = [.rbInit] := by decide
/-- V-RB-2 step 2. -/
theorem test_decode_rbPush : decodeRbReq 0x210EF = [.rbPush 0x10EF] := by decide
/-- R55: RB.POP is 0x1_0000. -/
theorem test_decode_rbPop : decodeRbReq 0x10000 = [.rbPop] := by decide
/-- V-RB-13: no command bit, `value` ignored. -/
theorem test_decode_rbNop : decodeCycle (.ringBuffer false false 0x01234) = [.rbNop] := by decide
/-- R55: 0x0_0000 with the output sampled. -/
theorem test_decode_rbAvailable : decodeCycle (.ringBuffer false true 0) = [.rbAvailable] := by decide
/-- V-DEC-2, V-DEC-8 and V-DEC-9 as intervals: the case an EDGE resolves to. -/
theorem test_resolve_cases : resolveEdge 10000 10600 = .edgeZero 10600 ∧
    resolveEdge 20400 22200 = .edgeOne 22200 ∧ resolveEdge 12000 15000 = .edgeFrameReset 15000 := by decide
/-- V-DEC-16: 0x3_0000_2968 is POP and EDGE 10600. -/
theorem test_decode_two_operations : decodeReq 0x300002968 = [.pop, .edge 10600] := by decide
/-- V-DEC-17: SETUP, and `rst`, drop the rest of the word. -/
theorem test_decode_priority : decodeReq 0x700002968 = [.setup] ∧
    decodeCycle (.top true false 0x300002968) = [.setup] ∧ decodeRbReq 0x700AA = [.rbInit] := by decide
/-- A number that is no request word is rejected by name; a word of two operations is not one instruction. -/
theorem test_table_words : decodeTableWord 0 0 = some .available ∧ decodeTableWord 40 0x800000000 = none ∧
    decodeTableWord 24 0x80000 = none ∧ decodeTableWord 40 0x300002968 = none := by decide

/-! ### The encoder: words from R55 -/

theorem test_encode_words : encode .setup = .top false false 0x400000000 ∧
    encode (.edge 22200) = .top false false 0x2000056B8 ∧ encode .pop = .top false false 0x100000000 ∧
    encode .available = .top false true 0 ∧ encode .rbInit = .ringBuffer false false 0x40000 ∧
    encode (.rbPush 0x10EF) = .ringBuffer false false 0x210EF ∧
    encode .rbPop = .ringBuffer false false 0x10000 ∧ encode .rbAvailable = .ringBuffer false true 0 := by decide

/-- V-DEC-1. -/
theorem test_classify : classify 1199 = .zero ∧ classify 1200 = .one ∧ classify 2399 = .one ∧
    classify 2400 = .frameReset ∧ classify 0x80000000 = .frameReset := by decide

/-! ### RingBuffer operations -/

/-- V-RB-4: head = 9, tail = 5; the words stay in `buf`. -/
theorem test_rbInit : ends (exec .rbInit (mk 0 0 0 9 5 [(5, 1), (8, 4)]))
    (fun t => ring t = (0, 0, [(5, 1), (8, 4)])) = true := by decide
/-- R58, first example. -/
theorem test_rbPush_not_full : ends (exec (.rbPush 0x10EF) (mk 0 0 0 3 1 []))
    (fun t => ring t = (4, 1, [(3, 0x10EF)])) = true := by decide
/-- V-RB-6: the 128th push wraps `head` and evicts. -/
theorem test_rbPush_full_wraps : ends (exec (.rbPush 128) (mk 0 0 0 127 0 [(0, 1)]))
    (fun t => ring t = (0, 1, [(0, 1), (127, 128)]) && t.count == 127) = true := by decide
/-- R59, its example. -/
theorem test_rbPop : ends (exec .rbPop (mk 0 0 0 4 1 [(1, 0xD827)]))
    (fun t => t.returned = [.word 0xD827] && ring t = (4, 2, [(1, 0xD827)])) = true := by decide
/-- V-RB-1: RB.POP after RB.INIT. -/
theorem test_rbPop_empty : runOps [.rbInit, .rbPop] (mk 0 0 0 9 5 []) = .fault .popEmpty := by rfl
/-- R60, its two examples. -/
theorem test_rbAvailable : ends (exec .rbAvailable (mk 0 0 0 4 2 [])) (fun t => t.returned = [.bit true]) = true ∧
    ends (exec .rbAvailable (mk 0 0 0 77 77 [])) (fun t => t.returned = [.bit false]) = true := by decide
/-- V-RB-13, second half. -/
theorem test_rbNop : runCycle (.ringBuffer false false 0x01234) (mk 1 2 3 5 2 []) = .next (mk 1 2 3 5 2 []) := by rfl

/-! ### SignalDecoder operations -/

/-- V-DEC-12. -/
theorem test_setup : ends (exec .setup (mk 22200 0x43 7 3 1 [(1, 9)]))
    (fun t => regs t = (0, 0, 0) && ring t = (0, 0, [(1, 9)])) = true := by decide
/-- V-DEC-10: the sixteenth bit. -/
theorem test_edge_emits : ends (exec (.edge 22200) (mk 20400 0x0877 15 0 0 []))
    (fun t => regs t = (22200, 0x10EF, 0) && ring t = (1, 0, [(0, 0x10EF)])) = true := by decide
/-- V-DEC-3: the timestamp counter wraps between the edges. -/
theorem test_edge_wrap : ends (exec (.edge 0x100) (mk 0xFFFFFF00 1 0 0 0 []))
    (fun t => regs t = (256, 2, 1)) = true := by decide
/-- V-DEC-7, third row. -/
theorem test_edgeZero : ends (exec (.edgeZero 600) (mk 0 0x8001 4 0 0 []))
    (fun t => regs t = (600, 0x0002, 5)) = true := by decide
/-- V-DEC-11: emission into a full buffer. -/
theorem test_edgeZero_full : ends (exec (.edgeZero 50600) (mk 50000 0 15 0 1 []))
    (fun t => regs t = (50600, 0, 0) && ring t = (1, 2, [(0, 0)]) && t.count == 127) = true := by decide
/-- V-DEC-8, third row. -/
theorem test_edgeOne : ends (exec (.edgeOne 1800) (mk 0 0x8001 4 0 0 []))
    (fun t => regs t = (1800, 0x0003, 5)) = true := by decide
/-- V-DEC-10, `bits = 14 before`. -/
theorem test_edgeOne_fifteenth : ends (exec (.edgeOne 22200) (mk 20400 0x0877 14 0 0 []))
    (fun t => regs t = (22200, 0x10EF, 15) && ring t = (0, 0, [])) = true := by decide
/-- V-DEC-9. -/
theorem test_edgeFrameReset : ends (exec (.edgeFrameReset 15000) (mk 12000 0x1F 5 0 0 []))
    (fun t => regs t = (15000, 0x1F, 0) && ring t = (0, 0, [])) = true := by decide
/-- V-DEC-5, a non-monotonic timestamp. -/
theorem test_edge_backwards : ends (exec (.edge 4000) (mk 5000 1 15 0 0 []))
    (fun t => regs t = (4000, 1, 0)) = true := by decide
/-- V-DEC-15. -/
theorem test_available : ends (exec .available (mk 0 0x7FFF 15 0 0 [])) (fun t => t.returned = [.bit false]) = true := by
  decide
/-- V-DEC-14. -/
theorem test_pop : ends (exec .pop (mk 9000 0x10 8 1 0 [(0, 0x1234)]))
    (fun t => t.returned = [.word 0x1234] && regs t = (9000, 0x10, 8) && ring t = (1, 1, [(0, 0x1234)])) = true := by
  decide
/-- V-DEC-17, last sentence. -/
theorem test_nop : runCycle (.top false false 0x0DEADBEEF) (mk 1 2 3 5 2 []) = .next (mk 1 2 3 5 2 []) := by rfl

/-! ### Cycles -/

/-- V-DEC-16: POP and EDGE in one cycle, the POP first. -/
theorem test_cycle_pop_then_edge : ends (runCycle (.top false false 0x300002968) (mk 10000 0x2 3 5 4 [(4, 0x10EF)]))
    (fun t => t.returned = [.word 0x10EF] && regs t = (10600, 0x4, 4) && t.head == 5 && t.tail == 5) = true := by decide
/-- V-RB-12: RB.POP and RB.PUSH in one cycle on a full buffer. -/
theorem test_ring_cycle_pop_then_push : ends (runCycle (.ringBuffer false false 0x30007) (mk 0 0 0 0 1 [(1, 11)]))
    (fun t => t.returned = [.word 11] && ring t = (1, 2, [(0, 7), (1, 11)]) && t.count == 127) = true := by decide
/-- V-DEC-18: a push in the same cycle does not rescue the POP. -/
theorem test_cycle_pop_not_rescued : runCycle (.top false false 0x3000056B8) (mk 20400 0x0877 15 0 0 []) =
    .fault .popEmpty := by rfl
/-- A presented word runs in the very next step: `EDGE 3000` right after reset (P1 step 2). -/
theorem test_presented_word_runs : ends (step (State.reset.withFetchWord 40 0x200000BB8))
    (fun t => regs t = (3000, 0, 0) && t.input == []) = true := by decide

/-! ### Witnesses: states and operands that meet the hypotheses of each statement that has some -/

/-- One word queued, three bits of the next one in assembly (the state of V-DEC-16). -/
def busy : State := mk 10000 0x2 3 5 4 [(4, 0x10EF)]
/-- 127 words queued, fifteen bits in assembly (V-DEC-11). -/
def full : State := mk 50000 0 15 0 1 [(1, 11)]
/-- An empty buffer with fifteen bits in assembly (V-DEC-10). -/
def ready : State := mk 20400 0x0877 15 0 0 []
/-- The first state of an empty buffer past the end of the array (V-RB-5's end). -/
def drained : State := mk 0 0 0 127 127 []

theorem test_hyp_SetupClearsRegistersKeepsBuf :
    (∃ t, exec .setup busy = .next t) ∧ BitVec.getLsbD (0x700002968 : Req) 34 = true := ⟨⟨_, rfl⟩, by decide⟩
theorem test_hyp_InitialEdgeClassifiesTimestamp : 2400 ≤ (2400 : Time).toNat ∧ (1199 : Time).toNat < 1200 ∧
    (0 : Time).toNat < 1200 ∧ (1200 ≤ (1200 : Time).toNat ∧ (1200 : Time).toNat < 2400) ∧
    (1200 ≤ (2399 : Time).toNat ∧ (2399 : Time).toNat < 2400) := by decide
theorem test_hyp_RbInitResetsIndices : (∃ t, exec .rbInit full = .next t) ∧
    BitVec.getLsbD (0x700AA : RbReq) 18 = true ∧ BitVec.getLsbD (0x300002968 : Req) 34 = false := ⟨⟨_, rfl⟩, by decide⟩
theorem test_hyp_RbPushWritesAtHead : BitVec.getLsbD (0x2FFFF : RbReq) 18 = false ∧
    BitVec.getLsbD (0x2FFFF : RbReq) 17 = true ∧ BitVec.getLsbD (0x2FFFF : RbReq) 16 = false := by decide
theorem test_hyp_RbPopReturnsOldest : busy.head ≠ busy.tail ∧ (∃ t, exec .rbPop busy = .next t) ∧
    drained.head = drained.tail ∧ BitVec.getLsbD (0x10000 : RbReq) 18 = false ∧
    BitVec.getLsbD (0x10000 : RbReq) 17 = false ∧ BitVec.getLsbD (0x10000 : RbReq) 16 = true :=
  ⟨by decide, ⟨_, rfl⟩, by decide⟩
theorem test_hyp_IdleOperationsChangeNothing : BitVec.getLsbD (0x0FFFFFFFF : Req) 34 = false ∧
    BitVec.getLsbD (0x0FFFFFFFF : Req) 33 = false ∧ BitVec.getLsbD (0x0FFFFFFFF : Req) 32 = false ∧
    BitVec.getLsbD (0x0FFFF : RbReq) 18 = false ∧ BitVec.getLsbD (0x0FFFF : RbReq) 17 = false ∧
    BitVec.getLsbD (0x0FFFF : RbReq) 16 = false := by decide
theorem test_hyp_PopOnEmptyIsPopEmpty : drained.head = drained.tail ∧
    ∃ t, runOps [.rbInit, .rbPush 7, .pop] busy = .next t ∧ t.head = t.tail := ⟨by decide, _, rfl, by decide⟩
theorem test_hyp_EdgeFollowsPseudocode : ready.bitsAccumulated.toNat < 16 ∧
    BitVec.getLsbD (0x2000056B8 : Req) 34 = false ∧ BitVec.getLsbD (0x2000056B8 : Req) 33 = true ∧
    BitVec.getLsbD (0x2000056B8 : Req) 32 = false := by decide
theorem test_hyp_ElapsedIsModularDifference : 2 ^ 32 - 1 < 2 ^ 32 ∧ ∃ t, exec (.edge 0) busy = .next t :=
  ⟨by decide, _, rfl⟩
/-- Shortest and longest ZERO interval, and the three counts at which the clauses meet. -/
theorem test_hyp_EdgeZeroShiftsInZero : (20400 - ready.lastEdgeTime).toNat < 1200 ∧
    (21599 - ready.lastEdgeTime).toNat < 1200 ∧ ready.bitsAccumulated.toNat < 16 ∧ ready.bitsAccumulated.toNat = 15 ∧
    (14 : Count).toNat < 15 ∧ State.reset.bitsAccumulated.toNat < 15 := by decide
/-- Shortest and longest ONE interval. -/
theorem test_hyp_EdgeOneShiftsInOne : 1200 ≤ (21600 - ready.lastEdgeTime).toNat ∧
    (21600 - ready.lastEdgeTime).toNat < 2400 ∧ 1200 ≤ (22799 - ready.lastEdgeTime).toNat ∧
    (22799 - ready.lastEdgeTime).toNat < 2400 ∧ ready.bitsAccumulated.toNat < 16 ∧
    ready.bitsAccumulated.toNat = 15 ∧ (14 : Count).toNat < 15 := by decide
/-- Shortest and longest FRAME_RESET interval. -/
theorem test_hyp_EdgeFrameResetRestartsCount : 2400 ≤ (22800 - ready.lastEdgeTime).toNat ∧
    2400 ≤ (20399 - ready.lastEdgeTime).toNat ∧ ready.bitsAccumulated.toNat < 16 := by decide
theorem test_hyp_EmissionPushesAccumulator : ready.bitsAccumulated.toNat < 16 ∧ ready.bitsAccumulated = 15 ∧
    classify (22799 - ready.lastEdgeTime) ≠ .frameReset ∧ classify (22800 - ready.lastEdgeTime) = .frameReset ∧
    busy.bitsAccumulated ≠ 15 := by decide
theorem test_hyp_EdgeRunsItsSelectedCase : classify (21599 - ready.lastEdgeTime) = .zero ∧
    classify (21600 - ready.lastEdgeTime) = .one ∧ classify (22800 - ready.lastEdgeTime) = .frameReset := by decide
theorem test_hyp_UnselectedEdgeCaseStops : classify (21600 - ready.lastEdgeTime) ≠ .zero ∧
    classify (21599 - ready.lastEdgeTime) ≠ .one ∧ classify (22799 - ready.lastEdgeTime) ≠ .frameReset := by decide
theorem test_hyp_EdgeOutsideLegalCountStops : 16 ≤ (mk 0 0 16 0 0 []).bitsAccumulated.toNat ∧
    16 ≤ (mk 0 0 31 0 0 []).bitsAccumulated.toNat := by decide
theorem test_hyp_PopDelegates : busy.head ≠ busy.tail ∧ (∃ t, exec .pop busy = .next t) ∧ ready.head = ready.tail ∧
    BitVec.getLsbD (0x1FFFFFFFF : Req) 34 = false ∧ BitVec.getLsbD (0x1FFFFFFFF : Req) 33 = false ∧
    BitVec.getLsbD (0x1FFFFFFFF : Req) 32 = true := ⟨by decide, ⟨_, rfl⟩, by decide⟩
/-- One request word for each clause: SETUP, POP and EDGE, POP, EDGE, none; the POP of each outcome. -/
theorem test_hyp_CyclePriorityAndOrder : BitVec.getLsbD (0x400000000 : Req) 34 = true ∧
    (BitVec.getLsbD (0x300002968 : Req) 34 = false ∧ BitVec.getLsbD (0x300002968 : Req) 32 = true ∧
      BitVec.getLsbD (0x300002968 : Req) 33 = true) ∧
    (BitVec.getLsbD (0x100000000 : Req) 32 = true ∧ BitVec.getLsbD (0x100000000 : Req) 33 = false) ∧
    (BitVec.getLsbD (0x200000000 : Req) 32 = false ∧ BitVec.getLsbD (0x200000000 : Req) 33 = true) ∧
    (BitVec.getLsbD (0x0FFFFFFFF : Req) 32 = false ∧ BitVec.getLsbD (0x0FFFFFFFF : Req) 33 = false) ∧
    (∃ t, exec .pop busy = .next t) ∧ exec .pop ready = .fault .popEmpty ∧
    busy.head ≠ busy.tail ∧ ready.head = ready.tail :=
  ⟨by decide, by decide, by decide, by decide, by decide, ⟨_, rfl⟩, rfl, by decide, rfl⟩
theorem test_hyp_SameCyclePopMakesRoom : full.bitsAccumulated = 15 ∧
    classify (50600 - full.lastEdgeTime) ≠ .frameReset ∧ full.count = 127 ∧ ∃ rest, full.queue = 11 :: rest :=
  ⟨by decide, by decide, by decide, _, rfl⟩
theorem test_hyp_PopAndSilentEdgeCommute : (mk 0 0 14 1 0 [(0, 3)]).bitsAccumulated.toNat < 15 ∧
    (full.bitsAccumulated.toNat < 16 ∧ classify (52400 - full.lastEdgeTime) = .frameReset) := by decide
theorem test_hyp_PopReturnsShownWord : busy.head ≠ busy.tail ∧ BitVec.getLsbD (0x300002968 : Req) 34 = false ∧
    BitVec.getLsbD (0x300002968 : Req) 32 = true ∧ ∃ t, runCycle (.top false false 0x300002968) busy = .next t :=
  ⟨by decide, by decide, by decide, _, rfl⟩
/-- One request word for each clause: RB.INIT, RB.POP and RB.PUSH, RB.POP, RB.PUSH, none; the RB.POP of each outcome. -/
theorem test_hyp_RbCyclePriorityAndOrder : BitVec.getLsbD (0x40000 : RbReq) 18 = true ∧
    (BitVec.getLsbD (0x30007 : RbReq) 18 = false ∧ BitVec.getLsbD (0x30007 : RbReq) 16 = true ∧
      BitVec.getLsbD (0x30007 : RbReq) 17 = true) ∧
    (BitVec.getLsbD (0x10000 : RbReq) 16 = true ∧ BitVec.getLsbD (0x10000 : RbReq) 17 = false) ∧
    (BitVec.getLsbD (0x20000 : RbReq) 16 = false ∧ BitVec.getLsbD (0x20000 : RbReq) 17 = true) ∧
    (BitVec.getLsbD (0x0FFFF : RbReq) 16 = false ∧ BitVec.getLsbD (0x0FFFF : RbReq) 17 = false) ∧
    (∃ t, exec .rbPop full = .next t) ∧ exec .rbPop drained = .fault .popEmpty :=
  ⟨by decide, by decide, by decide, by decide, by decide, ⟨_, rfl⟩, rfl⟩
theorem test_hyp_SubBlockAgreesWithWrapper : full.bitsAccumulated.toNat < 16 ∧
    (∃ t, runCycle (.top false false 0x30000C5A8) full = .next t) ∧
    ∃ u, runCycle (.ringBuffer false false (subRequest false 0x30000C5A8 full)) full = .next u :=
  ⟨by decide, ⟨_, rfl⟩, _, rfl⟩
theorem test_hyp_OneOperationPerCycle : ∀ i ∈ [Instr.setup, .edge 3000, .available, .rbPush 5, .pop, .nop],
    i.requestable = true := by decide
theorem test_hyp_RequestPatternsSelectOperations : decodeReq 0x0FFFFFFFF = [] ∧
    (0x100000000 : Req) &&& 0x700000000 = (0x1FFFFFFFF : Req) &&& 0x700000000 ∧
    BitVec.getLsbD (0x100000000 : Req) 33 = false ∧
    (0x700000000 : Req) &&& 0x700000000 = (0x700002968 : Req) &&& 0x700000000 ∧
    BitVec.getLsbD (0x700000000 : Req) 34 = true ∧ .setup ∈ decodeReq 0x700000000 ∧
    (0x3FFFFFFFF : Req) &&& 0x700000000 = 0x300000000 := by decide
theorem test_hyp_RbRequestPatternsSelectOperations : decodeRbReq 0x0FFFF = [] ∧
    (0x10000 : RbReq) &&& 0x70000 = (0x1FFFF : RbReq) &&& 0x70000 ∧ BitVec.getLsbD (0x10000 : RbReq) 17 = false ∧
    (0x70000 : RbReq) &&& 0x70000 = (0x700AA : RbReq) &&& 0x70000 ∧ BitVec.getLsbD (0x70000 : RbReq) 18 = true := by
  decide
theorem test_hyp_DecodeOfEncode : wellFormedCycle [.available, .pop, .edge 0xFFFFFFFF] = true ∧
    wellFormedCycle [.rbAvailable, .rbPop, .rbPush 0xFFFF] = true ∧ wellFormedCycle [.nop] = true := by decide
theorem test_hyp_StepRunsDecodedCycle : State.reset.input = [] ∧
    ({ busy with input := [.top false false 0x100000000] } : State).input = [.top false false 0x100000000] ∧
    decodeCycle (.top false false 0x100000000) = [.pop] := by decide
theorem test_hyp_PresentedWordRunsItsInstruction : decodeTableWord 40 0x2FFFFFFFF = some (.edge 0xFFFFFFFF) ∧
    decodeTableWord 24 0x2FFFF = some (.rbPush 0xFFFF) := by decide
theorem test_hyp_OperationsLeaveEnvironment : (∃ t, exec .pop busy = .next t) ∧ isPop .pop = true ∧
    (∃ t, exec .available busy = .next t) ∧ isAvailable .available = true ∧
    (∃ t, exec (.edge 1) busy = .next t) ∧ isPop (.edge 1) = false ∧ isAvailable (.edge 1) = false :=
  ⟨⟨_, rfl⟩, rfl, ⟨_, rfl⟩, rfl, ⟨_, rfl⟩, rfl, rfl⟩
/-- A state of the invariant that is not the reset state. -/
theorem test_busy_inv : busy.Inv where
  count_lt := by decide
  buf_wf := by decide
  live_written := by decide
theorem test_hyp_StepKeepsInvariant : ({ busy with input := [.top false false 0x300002968] } : State).Inv ∧
    ∃ t, step { busy with input := [.top false false 0x300002968] } = .next t :=
  ⟨⟨test_busy_inv.count_lt, test_busy_inv.buf_wf, test_busy_inv.live_written⟩, _, rfl⟩
theorem test_hyp_OnlyEmptyPopFaults : exec .pop ready = .fault .popEmpty ∧
    exec (.edge 0) (mk 0 0 16 0 0 []) = .refused .countOutOfRange ∧ Instr.requestable (.edge 0) = true := ⟨rfl, rfl, rfl⟩
theorem test_hyp_GuardedCycleCompletes : ({ busy with input := [.top false false 0x300002968] } : State).Inv ∧
    popGuarded (nextCycle { busy with input := [.top false false 0x300002968] })
      { busy with input := [.top false false 0x300002968] } = true :=
  ⟨test_hyp_StepKeepsInvariant.1, by decide⟩
theorem test_hyp_OnlyOwnersChangeState : (∃ t, exec .pop busy = .next t) ∧ Instr.setsEdge .pop = false ∧
    Instr.setsPush .pop = false ∧ isInit .pop = false ∧ isAvailable .available = true ∧
    (∃ t, exec .available busy = .next t) ∧ isPop (.rbPush 1) = false ∧ isInit (.rbPush 1) = false ∧
    ∃ t, exec (.rbPush 1) full = .next t ∧ t.tail ≠ full.tail :=
  ⟨⟨_, rfl⟩, rfl, rfl, rfl, rfl, ⟨_, rfl⟩, rfl, rfl, _, rfl, by decide⟩
theorem test_hyp_StoresOnlyAtHead : (∃ t, exec (.edge 22799) ready = .next t) ∧
    storesWord (.edge 22799) ready = true ∧ (∃ t, exec (.edge 22800) ready = .next t) ∧
    storesWord (.edge 22800) ready = false := ⟨⟨_, rfl⟩, by decide, ⟨_, rfl⟩, by decide⟩
theorem test_hyp_AvailableFlagChanges : (∃ t, exec (.rbPush 1) ready = .next t ∧ t.available = true) ∧
    storesWord (.rbPush 1) ready = true ∧ ready.available = false ∧ busy.available = true ∧ isPop .pop = true ∧
    busy.count = 1 ∧ (∃ t, exec .pop busy = .next t ∧ t.available = false) ∧ isInit .setup = true ∧
    ∃ t, exec .setup full = .next t :=
  ⟨⟨_, rfl, by decide⟩, rfl, by decide, by decide, rfl, by decide, ⟨_, rfl, by decide⟩, rfl, _, rfl⟩
theorem test_hyp_PushNeverOverwritesLiveEntry : full.full = true ∧ full.live full.tail = true ∧
    busy.live busy.tail = true := by decide
theorem test_hyp_LiveWordsAreImmutable : (∃ t, exec (.rbPush 1) busy = .next t ∧ busy.live 4 = true) ∧
    ∃ t, exec (.rbPush 1) full = .next t ∧ full.live 1 = true ∧ t.live 1 = false :=
  ⟨⟨_, rfl, by decide⟩, _, rfl, by decide, by decide⟩
theorem test_hyp_OccupancyLaw : (∃ t, exec (.rbPush 1) full = .next t) ∧ (∃ t, exec .rbPop busy = .next t) ∧
    (∃ t, exec .rbInit busy = .next t) ∧ ∃ t, exec .rbAvailable busy = .next t :=
  ⟨⟨_, rfl⟩, ⟨_, rfl⟩, ⟨_, rfl⟩, _, rfl⟩
theorem test_hyp_RingBufferIsBoundedQueue : busy.queue = [0x10EF] ∧ drained.queue = [] := ⟨rfl, rfl⟩
theorem test_hyp_FifoUpToUsableCapacity : drained.head = drained.tail ∧ (List.replicate 127 (5 : Word)).length ≤ 127 :=
  ⟨rfl, by simp⟩
theorem test_hyp_OverflowKeepsNewest : drained.head = drained.tail ∧ 127 ≤ (List.replicate 130 (5 : Word)).length :=
  ⟨rfl, by simp⟩
/-- Sixteen intervals of 600 microseconds after an abandoned frame. -/
theorem test_hyp_SixteenSymbolsMakeOneWord : (mk 15000 0x1F 0 0 0 []).bitsAccumulated = 0 ∧
    ((List.range 16).map fun k => (BitVec.ofNat 32 (15600 + 600 * k) : Time)).length = 16 ∧
    ∀ sym ∈ symbolsFrom 15000 ((List.range 16).map fun k => BitVec.ofNat 32 (15600 + 600 * k)),
      sym ≠ .frameReset := by decide
theorem test_hyp_EdgesPushTheWordsOfTheirSymbols : (mk 15000 0x1F 0 0 0 []).bitsAccumulated = 0 := by decide
theorem test_hyp_CheckedPopSurvivesEdges : busy.bitsAccumulated.toNat < 16 ∧ busy.available = true := by decide
theorem test_hyp_EvictionBetweenCheckAndPop : full.bitsAccumulated = 15 ∧
    classify (50600 - full.lastEdgeTime) ≠ .frameReset ∧ full.full = true ∧
    ∃ oldest second rest, full.queue = oldest :: second :: rest :=
  ⟨by decide, by decide, by decide, _, _, _, rfl⟩
/-- 42_cycle_step.md R86 and R83: a word-completing EDGE raises `push`, and not in a cycle of SETUP or reset, where it is dropped. -/
theorem test_subRequest_push : subRequest false 0x2000056B8 ready = 0x210EF ∧
    subRequest false 0x6000056B8 ready = 0x410EF ∧ subRequest true 0x2000056B8 ready = 0x410EF := by decide
/-- R86's `pop` = req.pop beside `init`, and R50's POP not selected there (log 17). -/
theorem test_subRequest_pop : subRequest false 0x7000056B8 ready = 0x510EF ∧
    selectedSubRequest false 0x7000056B8 ready = 0x410EF := by decide
theorem test_hyp_SubRequestFollowsTheCycle : full.bitsAccumulated.toNat < 16 ∧
    (∃ t, runCycle (.top false false 0x30000C5A8) full = .next t) ∧
    BitVec.getLsbD (subRequest false 0x30000C5A8 full) 17 = true ∧
    (∃ t, runCycle (.top false false 0x30000CCB0) full = .next t) ∧
    BitVec.getLsbD (subRequest false 0x30000CCB0 full) 17 = false ∧
    BitVec.getLsbD (subRequest false 0x30000CCB0 full) 18 = false := ⟨by decide, ⟨_, rfl⟩, by decide, ⟨_, rfl⟩, by decide⟩
theorem test_hyp_UnwrittenSlotsNeverShow : busy.Inv ∧ ∃ t, runOps [.pop, .edge 10600, .setup] busy = .next t :=
  ⟨test_busy_inv, _, rfl⟩

end Sys2Proof.Tests
end

section
/-! What an operation does to the RingBuffer, and the statements of 10_state.md R18, R20 and R27. -/

namespace Sys2Proof.Machine

/-! ### The class of an operation -/

theorem isPop_cases {i : Instr} (h : isPop i = true) : i = .pop ∨ i = .rbPop := by
  cases i <;> simp [isPop] at h ⊢

theorem isAvailable_cases {i : Instr} (h : isAvailable i = true) : i = .available ∨ i = .rbAvailable := by
  cases i <;> simp [isAvailable] at h ⊢

/-- EDGE and its cases are in no other class of operations. -/
theorem class_of_setsEdge {i : Instr} (h : i.setsEdge = true) :
    i.setsPush = false ∧ isPop i = false ∧ isInit i = false := by
  cases i <;> simp [Instr.setsEdge, Instr.setsPush, isPop, isInit] at h ⊢

/-- R32, R71: an EDGE stores a word exactly when a data symbol is the sixteenth. -/
theorem storesWord_iff_of_setsEdge {i : Instr} (h : i.setsEdge = true) (s : State) :
    storesWord i s = true ↔
      s.bitsAccumulated.toNat = 15 ∧ classify (i.nowField - s.lastEdgeTime) ≠ .frameReset := by
  simp [storesWord, (class_of_setsEdge h).1, h, State.elapsed, elapsedSince, ← BitVec.toNat_inj]

theorem storesWord_eq_false_of_setsEdge {i : Instr} (h : i.setsEdge = true) {s : State}
    (hn : s.bitsAccumulated.toNat = 15 → classify (i.nowField - s.lastEdgeTime) = .frameReset) :
    storesWord i s = false :=
  Bool.eq_false_iff.2 fun hs =>
    have ⟨h15, hd⟩ := (storesWord_iff_of_setsEdge h s).1 hs
    hd (hn h15)

/-! ### The effect of an operation on the RingBuffer -/

theorem sameRing_refl (s : State) : sameRing s s := ⟨rfl, rfl, fun _ => rfl⟩

/-- What an EDGE that completes does to the ring: push the accumulator it leaves, or nothing. -/
theorem edge_ring_cases {i : Instr} {s t : State} (hi : i.setsEdge = true)
    (hb : s.bitsAccumulated.toNat < 16) (h : exec (.edge i.nowField) s = .next t) :
    (storesWord i s = true ∧ sameRing (pushed t.inProgressWord s) t) ∨
    (storesWord i s = false ∧ sameRing s t) := by
  rcases edge_cases i.nowField hb with ⟨b, hc, h15, he⟩ | ⟨b, -, hlt, he⟩ | ⟨hc, he⟩ <;>
    obtain rfl := next_inj (he.symm.trans h)
  · have hd : classify (i.nowField - s.lastEdgeTime) ≠ .frameReset := hc ▸ dataSymbol_ne b
    exact .inl ⟨(storesWord_iff_of_setsEdge hi s).2 ⟨h15, hd⟩, sameRing_refl _⟩
  · exact .inr ⟨storesWord_eq_false_of_setsEdge hi fun h15 => by omega, sameRing_refl _⟩
  · exact .inr ⟨storesWord_eq_false_of_setsEdge hi fun _ => hc, sameRing_refl _⟩

/-- Everything an operation that completes can have done to the ring: a push, a pop, RB.INIT, or nothing. -/
theorem exec_ring_cases {i : Instr} {s t : State} (h : exec i s = .next t) :
    (storesWord i s = true ∧ isPop i = false ∧ isInit i = false ∧
      sameRing (pushed (if i.setsEdge then t.inProgressWord else i.valueField) s) t) ∨
    (storesWord i s = false ∧ isPop i = true ∧ isInit i = false ∧ s.head ≠ s.tail ∧ sameRing (popped s) t) ∨
    (storesWord i s = false ∧ isPop i = false ∧ isInit i = true ∧ sameRing (ringInit s) t) ∨
    (storesWord i s = false ∧ isPop i = false ∧ isInit i = false ∧ sameRing s t) := by
  rcases exec_next_cases h with ⟨rfl, rfl⟩ | ⟨rfl, rfl⟩ | ⟨hp, hne, rfl⟩ | ⟨ha, rfl⟩ | ⟨rfl | rfl, rfl⟩ |
    ⟨v, rfl, rfl⟩ | ⟨he, hb, hx⟩
  · exact .inr (.inr (.inl ⟨rfl, rfl, rfl, sameRing_refl _⟩))
  · exact .inr (.inr (.inl ⟨rfl, rfl, rfl, sameRing_refl _⟩))
  · obtain rfl | rfl := isPop_cases hp <;> exact .inr (.inl ⟨rfl, rfl, rfl, hne, sameRing_refl _⟩)
  · obtain rfl | rfl := isAvailable_cases ha <;> exact .inr (.inr (.inr ⟨rfl, rfl, rfl, sameRing_refl _⟩))
  · exact .inr (.inr (.inr ⟨rfl, rfl, rfl, sameRing_refl _⟩))
  · exact .inr (.inr (.inr ⟨rfl, rfl, rfl, sameRing_refl _⟩))
  · exact .inl ⟨rfl, rfl, rfl, sameRing_refl _⟩
  · obtain ⟨-, hp, hi⟩ := class_of_setsEdge he
    rw [he, if_pos rfl]
    rcases edge_ring_cases he hb hx with ⟨hs, hr⟩ | ⟨hs, hr⟩
    · exact .inl ⟨hs, hp, hi, hr⟩
    · exact .inr (.inr (.inr ⟨hs, hp, hi, hr⟩))

/-! ### The flag after each of them (R18) -/

theorem available_eq_of_sameRing {s t : State} (h : sameRing s t) : t.available = s.available := by
  obtain ⟨hh, ht, -⟩ := h
  simp only [State.available, hh, ht]

theorem pushed_available (v : Word) (s : State) : (pushed v s).available = true := by
  have hc := pushed_count v s
  rw [available_iff, ne_eq, empty_iff_count]
  omega

theorem popped_available_false_iff {s : State} (h : s.head ≠ s.tail) :
    (popped s).available = false ↔ s.count = 1 := by
  rw [available_false_iff, empty_iff_count, popped_count s h]
  rw [ne_eq, empty_iff_count] at h
  omega

theorem ringInit_available (s : State) : (ringInit s).available = false := rfl

/-- Settles O44, by the effect of the operation on the ring: a push, a pop, RB.INIT or none. -/
theorem availableFlagChanges : Obligations.AvailableFlagChanges := by
  refine ⟨rfl, available_iff, fun i s t h => ?_⟩
  rcases exec_ring_cases h with ⟨hs, hp, hi, hr⟩ | ⟨hs, hp, hi, hne, hr⟩ | ⟨hs, hp, hi, hr⟩ | ⟨hs, hp, hi, hr⟩
  · have ht : t.available = true := (available_eq_of_sameRing hr).trans (pushed_available _ s)
    simp [hs, hp, hi, ht]
  · have ht : t.available = false ↔ s.count = 1 :=
      available_eq_of_sameRing hr ▸ popped_available_false_iff hne
    simp [hs, hp, hi, ht, (available_iff s).2 hne]
  · have ht : t.available = false := (available_eq_of_sameRing hr).trans (ringInit_available s)
    simp [hi, hp, hs, ht]
  · have ht : t.available = s.available := available_eq_of_sameRing hr
    simp +contextual [hs, hp, hi, ht]

/-! ### Live slots under a push (R20) -/

theorem full_iff (s : State) : s.full = true ↔ s.head + 1 = s.tail := beq_iff_eq

theorem tail_live_iff (s : State) : s.live s.tail = true ↔ 0 < s.count := by simp [live_iff]

theorem ne_head_of_live {s : State} {i : Index} (h : s.live i = true) : i ≠ s.head := by
  rintro rfl
  simp [head_not_live] at h

theorem pushed_read_ne (v : Word) {s : State} {i : Index} (h : i ≠ s.head) :
    (pushed v s).buf.read i.toNat = s.buf.read i.toNat :=
  Memory.read_write_ne s.buf v (index_toNat_ne h)

theorem pushed_tail_of_full (v : Word) {s : State} (h : s.head + 1 = s.tail) :
    (pushed v s).tail = s.tail + 1 := if_pos h

/-- The entry a push evicts is the furthest slot behind the new `tail`, so it is no longer live. -/
theorem pushed_evicts_tail (v : Word) {s : State} (h : s.head + 1 = s.tail) :
    (pushed v s).live s.tail = false := by
  have hd : s.tail - (s.tail + 1) = 127 := by bv_omega
  have hc := pushed_count v s
  rw [Bool.eq_false_iff, ne_eq, live_iff, pushed_tail_of_full v h, hd, hc]
  simp

/-- Settles O45: the pushed state is `pushed v s`, whose one written slot, the old `head`, is not live. -/
theorem pushNeverOverwritesLiveEntry : Obligations.PushNeverOverwritesLiveEntry := by
  intro v s
  have hlt := count_lt s
  refine ⟨pushed v s, exec_rbPush v s, (available_iff _).1 (pushed_available v s), pushed_count v s,
    by omega, (full_iff s).trans (full_iff_count s), full_iff s, head_not_live s,
    fun i hi => pushed_read_ne v (ne_head_of_live hi), fun hf => ?_⟩
  have hw : s.head + 1 = s.tail := (full_iff s).1 hf
  have hc : s.count = 127 := (full_iff_count s).1 hw
  exact ⟨(tail_live_iff s).2 (by omega), pushed_evicts_tail v hw, pushed_tail_of_full v hw⟩

/-! ### Reset and SETUP (R27) -/

theorem exec_setup (s : State) : exec .setup s = .next { s with
    lastEdgeTime := 0, bitsAccumulated := 0, inProgressWord := 0, head := 0, tail := 0 } := rfl

theorem runCycle_top_rst (s : State) (req : Req) : runCycle (.top true false req) s = exec .setup s :=
  runCycle_top s true req

/-- Settles O1: a cycle with `rst` = 1 is SETUP, whose next state is written out. -/
theorem resetAndSetupValues : Obligations.ResetAndSetupValues := by
  refine ⟨⟨rfl, rfl, rfl, rfl, rfl, rfl, rfl, Memory.read_empty⟩, fun s req => ?_⟩
  exact ⟨_, exec_setup s, (runCycle_top_rst s req).trans (exec_setup s),
    rfl, rfl, rfl, rfl, rfl, fun _ => rfl, rfl, (empty_iff_count _).1 rfl⟩

end Sys2Proof.Machine
end

section
/-! How sixteen data symbols become one word of the queue, and the statements of 30_encoding.md R43 to R46. -/

namespace Sys2Proof.Machine

/-! ### The symbol of an interval (R43 to R45) -/

/-- The class of every interval, with its bounds. -/
theorem classify_cases (e : Time) :
    (e.toNat < 1200 ∧ classify e = .zero) ∨
    (1200 ≤ e.toNat ∧ e.toNat < 2400 ∧ classify e = .one) ∨
    (2400 ≤ e.toNat ∧ classify e = .frameReset) := by
  by_cases h : e.toNat < 1200
  · exact .inl ⟨h, classify_of_lt h⟩
  · by_cases h' : e.toNat < 2400
    · exact .inr (.inl ⟨by omega, h', classify_of_between (by omega) h'⟩)
    · exact .inr (.inr ⟨by omega, classify_of_ge (by omega)⟩)

/-- R43: the bounds are those of the classes, since every interval is within the bounds of one of them only. -/
theorem classify_iff (e : Time) :
    (classify e = .zero ↔ e.toNat < 1200) ∧
    (classify e = .one ↔ 1200 ≤ e.toNat ∧ e.toNat < 2400) ∧
    (classify e = .frameReset ↔ 2400 ≤ e.toNat) := by
  obtain ⟨h, hc⟩ | ⟨h, h', hc⟩ | ⟨h, hc⟩ := classify_cases e <;>
    simp only [hc, true_iff, reduceCtorEq, false_iff] <;> omega

/-- Settles O13, by the bounds of the classes, which R45's boundary values meet. -/
theorem classifyByThresholds : Obligations.ClassifyByThresholds := by
  intro e
  obtain ⟨hzero, hone, hreset⟩ := classify_iff e
  exact ⟨hzero, hone, hreset, classify_of_lt (by decide), classify_of_lt (by decide),
    classify_of_between (by decide) (by decide), classify_of_between (by decide) (by decide),
    classify_of_ge (by decide), classify_of_ge (by decide)⟩

/-! ### The queue after a push (R20, R22) -/

/-- The live entries and the slot at the old `head` hold, after a push, the old queue and then the pushed word. -/
theorem pushed_slots (v : Word) (s : State) :
    ((List.range (s.count + 1)).map fun k => (pushed v s).slot (s.tail + BitVec.ofNat 7 k)) = s.queue ++ [v] := by
  rw [List.range_succ, List.map_append, List.map_singleton, tail_add_count, pushed_slot_head, State.queue]
  congr 1
  exact List.map_congr_left fun k hk => pushed_slot_ne v s _ (entry_ne_head s k (List.mem_range.1 hk))

theorem queue_length (s : State) : s.queue.length = s.count := by simp [State.queue]

theorem pushed_tail_of_not_full (v : Word) {s : State} (h : s.head + 1 ≠ s.tail) :
    (pushed v s).tail = s.tail := if_neg h

/-- A push enqueues its word in a queue of at most 127: on a full buffer the entries begin one slot later. -/
theorem pushed_queue (v : Word) (s : State) : (pushed v s).queue = enqueue s.queue v := by
  have hlt := count_lt s
  have hlen := queue_length s
  rw [enqueue, State.queue, pushed_count]
  by_cases hf : s.head + 1 = s.tail
  · have hc : s.count = 127 := (full_iff_count s).1 hf
    have hdrop : s.queue.drop 1 ++ [v] = (s.queue ++ [v]).drop 1 :=
      (List.drop_append_of_le_length (by omega)).symm
    rw [if_neg (by omega), hdrop, ← pushed_slots, List.range_succ_eq_map, pushed_tail_of_full v hf, hc]
    simp only [List.map_cons, List.drop_succ_cons, List.drop_zero, List.map_map]
    refine List.map_congr_left fun k _ => congrArg _ ?_
    rw [Nat.succ_eq_add_one, BitVec.ofNat_add, BitVec.add_assoc, BitVec.add_comm 1]
    rfl
  · have hc : s.count ≠ 127 := fun h => hf ((full_iff_count s).2 h)
    rw [if_pos (by omega), ← pushed_slots, pushed_tail_of_not_full v hf, Nat.min_eq_left (by omega)]

/-! ### The accumulator over several data bits (R46, R68, R69) -/

theorem shiftIn_getLsbD_zero (w : Word) (b : Bool) : (shiftIn w b).getLsbD 0 = b := by
  cases b <;> simp [shiftIn]

theorem shiftIn_getLsbD_succ (w : Word) (b : Bool) {j : Nat} (h : j + 1 < 16) :
    (shiftIn w b).getLsbD (j + 1) = w.getLsbD j := by
  have hj : j < 16 := by omega
  cases b <;> simp [shiftIn, h, BitVec.getLsbD_eq_getElem hj]

/-- Bit `j` moves up one place for each bit shifted in. -/
theorem foldl_shiftIn_getLsbD_add (bits : List Bool) (w : Word) {j : Nat} (h : bits.length + j < 16) :
    (bits.foldl shiftIn w).getLsbD (bits.length + j) = w.getLsbD j := by
  induction bits generalizing w j with
  | nil => simp
  | cons b bits ih =>
    rw [List.length_cons] at h ⊢
    rw [List.foldl_cons, Nat.add_right_comm, Nat.add_assoc, ih _ (by omega),
      shiftIn_getLsbD_succ w b (by omega)]

/-- R46: of at most sixteen bits shifted in, the first stands highest and the last in bit 0. -/
theorem foldl_shiftIn_getLsbD (bits : List Bool) (w : Word) {k : Nat} (hk : k < bits.length)
    (h : bits.length ≤ 16) : bits[k]? = some ((bits.foldl shiftIn w).getLsbD (bits.length - 1 - k)) := by
  induction bits generalizing w k with
  | nil => cases hk
  | cons b bits ih =>
    rw [List.length_cons] at h
    rw [List.foldl_cons, List.length_cons, Nat.add_sub_cancel]
    cases k with
    | zero =>
      have hb := foldl_shiftIn_getLsbD_add bits (shiftIn w b) (j := 0) (by omega)
      exact congrArg some (hb.trans (shiftIn_getLsbD_zero w b)).symm
    | succ k =>
      rw [List.getElem?_cons_succ, Nat.add_comm k 1, Nat.sub_add_eq]
      exact ih _ (Nat.lt_of_succ_lt_succ hk) (by omega)

/-! ### A run of data symbols (R46, R71) -/

theorem dataSymbol_injective : Function.Injective dataSymbol := by decide

theorem dataSymbol_eq_one_iff (b : Bool) : dataSymbol b = .one ↔ b = true := by cases b <;> decide

/-- Symbols without a FRAME_RESET are those of a list of bits. -/
theorem exists_bits_of_data {syms : List Symbol} (h : ∀ sym ∈ syms, sym ≠ .frameReset) :
    ∃ bits : List Bool, bits.map dataSymbol = syms := by
  have hr : syms ∈ Set.range (List.map dataSymbol) := by
    rw [Set.range_list_map]
    intro sym hsym
    obtain ⟨b, rfl⟩ := (symbol_cases sym).resolve_left (h sym hsym)
    exact ⟨b, rfl⟩
  exact hr

theorem symbolsFrom_length (last : Time) (nows : List Time) : (symbolsFrom last nows).length = nows.length := by
  induction nows generalizing last with
  | nil => rfl
  | cons now nows ih => exact congrArg (· + 1) (ih now)

/-- A data symbol before the sixteenth is counted. -/
theorem edge_counts {b : Bool} {now : Time} {s : State} (hc : classify (now - s.lastEdgeTime) = dataSymbol b)
    (h : s.bitsAccumulated.toNat < 15) : exec (.edge now) s = .next (counted b now s) := by
  obtain ⟨_, _, h15, _⟩ | ⟨b', hc', _, he⟩ | ⟨hf, _⟩ := edge_cases now (show s.bitsAccumulated.toNat < 16 by omega)
  · omega
  · rwa [dataSymbol_injective (hc.symm.trans hc')]
  · exact absurd (hc.symm.trans hf) (dataSymbol_ne b)

/-- The sixteenth data symbol completes a word, which is pushed. -/
theorem edge_completes {b : Bool} {now : Time} {s : State} (hc : classify (now - s.lastEdgeTime) = dataSymbol b)
    (h : s.bitsAccumulated.toNat = 15) :
    exec (.edge now) s = .next (pushed (shiftIn s.inProgressWord b) (completed b now s)) := by
  obtain ⟨b', hc', _, he⟩ | ⟨_, _, hlt, _⟩ | ⟨hf, _⟩ := edge_cases now (show s.bitsAccumulated.toNat < 16 by omega)
  · rwa [dataSymbol_injective (hc.symm.trans hc')]
  · omega
  · exact absurd (hc.symm.trans hf) (dataSymbol_ne b)

theorem runOps_cons_next {i : Instr} {s t : State} (h : exec i s = .next t) (is : List Instr) :
    runOps (i :: is) s = runOps is t := by rw [runOps_cons, h]

/-- The data bits that are missing to sixteen, at least one: each but the last is counted, the last completes the word. -/
theorem run_data_edges {bits : List Bool} {nows : List Time} {s : State}
    (hsyms : bits.map dataSymbol = symbolsFrom s.lastEdgeTime nows)
    (hlt : s.bitsAccumulated.toNat < 16) (hn : s.bitsAccumulated.toNat + nows.length = 16) :
    ∃ t, runOps (nows.map .edge) s = .next t ∧ t.bitsAccumulated = 0 ∧
      t.inProgressWord = bits.foldl shiftIn s.inProgressWord ∧ t.queue = enqueue s.queue t.inProgressWord := by
  induction nows generalizing bits s with
  | nil =>
    rw [List.length_nil] at hn
    omega
  | cons now nows ih =>
    obtain ⟨b, bits, rfl, hb, hbits⟩ := List.map_eq_cons_iff.1 hsyms
    rw [List.length_cons] at hn
    rw [List.map_cons, List.foldl_cons]
    by_cases h15 : s.bitsAccumulated.toNat = 15
    · obtain rfl : nows = [] := List.eq_nil_of_length_eq_zero (by omega)
      obtain rfl : bits = [] := List.map_eq_nil_iff.1 hbits
      exact ⟨_, (runOps_singleton _ s).trans (edge_completes hb.symm h15), rfl, rfl, pushed_queue _ _⟩
    · have hcount : (counted b now s).bitsAccumulated.toNat = s.bitsAccumulated.toNat + 1 := count_succ_toNat hlt
      rw [runOps_cons_next (edge_counts hb.symm (by omega))]
      exact ih hbits (by omega) (by omega)

/-- Settles O51: the run shifts in the sixteen bits of the symbols, and sixteen shifts put bit `k` at place `15 - k`. -/
theorem sixteenSymbolsMakeOneWord : Obligations.SixteenSymbolsMakeOneWord := by
  intro s nows h0 hlen hdata
  obtain ⟨bits, hbits⟩ := exists_bits_of_data hdata
  have hn : bits.length = 16 := by
    rw [← List.length_map (f := dataSymbol), hbits, symbolsFrom_length, hlen]
  obtain ⟨t, hrun, hcount, hword, hqueue⟩ := run_data_edges hbits (by simp [h0]) (by simp [h0, hlen])
  refine ⟨t, t.inProgressWord, hrun, hcount, hqueue, rfl, fun k hk => ?_⟩
  have hbit := foldl_shiftIn_getLsbD bits s.inProgressWord (hn ▸ hk) hn.le
  rw [hn, ← hword] at hbit
  rw [← hbits, List.getElem?_map, hbit, Option.map_some, Option.some_inj, dataSymbol_eq_one_iff]

end Sys2Proof.Machine
end

section
/-! The four operations of the RingBuffer, one by one, and the occupancy law: the statements of 40_ringbuffer.md. -/

namespace Sys2Proof.Machine

/-! ### What each operation answers (R57 to R60) -/

theorem exec_rbInit (s : State) : exec .rbInit s = .next (ringInit s) := rfl

theorem exec_rbAvailable (s : State) :
    exec .rbAvailable s = .next { s with returned := s.returned ++ [.bit s.available] } := rfl

theorem exec_rbPop_empty {s : State} (h : s.head = s.tail) : exec .rbPop s = .fault .popEmpty := ringPop_empty h

theorem exec_rbPop_nonempty {s : State} (h : s.head ≠ s.tail) : exec .rbPop s = .next (popped s) :=
  ringPop_nonempty h

/-- RB.POP completes only on a non-empty buffer. -/
theorem rbPop_next {s t : State} (h : exec .rbPop s = .next t) : s.head ≠ s.tail ∧ t = popped s := by
  by_cases he : s.head = s.tail
  · cases (exec_rbPop_empty he).symm.trans h
  · exact ⟨he, (next_inj ((exec_rbPop_nonempty he).symm.trans h)).symm⟩

theorem count_pos_iff (s : State) : 0 < s.count ↔ s.head ≠ s.tail := by
  rw [Nat.pos_iff_ne_zero, ne_eq, ne_eq, empty_iff_count]

theorem ringInit_count (s : State) : (ringInit s).count = 0 := (empty_iff_count _).1 rfl

theorem queue_eq_nil_iff (s : State) : s.queue = [] ↔ s.head = s.tail := by
  rw [← List.length_eq_zero_iff, queue_length, empty_iff_count]

/-! ### Who asks for it (R48, R50) -/

/-- A cycle that asks for one operation performs exactly it. -/
theorem runCycle_of_decode {c : Cycle} {i : Instr} (h : decodeCycle c = [i]) (s : State) :
    runCycle c s = exec i s := by
  rw [runCycle, h, runOps_singleton]

/-- What a sub-block request word asks for, by its bits. -/
theorem decodeRbReq_eq (rbReq : RbReq) :
    decodeRbReq rbReq =
      if rbReq.getLsbD 18 then [.rbInit]
      else (if rbReq.getLsbD 16 then [.rbPop] else []) ++
        (if rbReq.getLsbD 17 then [.rbPush (rbReq.setWidth 16)] else []) := by
  rw [← rbReqValue_eq]
  rfl

/-- The operations of a cycle are those its commands ask for, the sampled output and the idle operation. -/
theorem mem_cycleOps {sample : Bool} {sampled idle i : Instr} {commands : List Instr}
    (h : i ∈ cycleOps sample sampled idle commands) : i = sampled ∨ i = idle ∨ i ∈ commands := by
  cases sample with
  | true => exact (List.mem_cons.1 h).imp_right .inr
  | false =>
    cases commands with
    | nil => exact .inr (.inl (List.mem_singleton.1 h))
    | cons op ops => exact .inr (.inr h)

/-- The operations a top-level request word can ask for. -/
theorem mem_decodeReq {req : Req} {i : Instr} (h : i ∈ decodeReq req) :
    (i = .setup ∧ req.getLsbD 34 = true) ∨ i = .pop ∨ i = .edge (reqNow req) := by
  by_cases hs : reqSetup req = true
  · rw [decodeReq, if_pos hs] at h
    exact .inl ⟨List.mem_singleton.1 h, hs⟩
  · rw [decodeReq, if_neg hs, List.mem_append, List.mem_ite_nil_right, List.mem_ite_nil_right] at h
    exact .inr (h.imp (fun hp => List.mem_singleton.1 hp.2) fun he => List.mem_singleton.1 he.2)

/-- The operations a cycle of IRDEC can perform. -/
theorem mem_decodeCycle_top {rst sample : Bool} {req : Req} {i : Instr} (h : i ∈ decodeCycle (.top rst sample req)) :
    i = .available ∨ i = .nop ∨ (i = .setup ∧ (rst = true ∨ req.getLsbD 34 = true)) ∨
      i = .pop ∨ i = .edge (reqNow req) := by
  refine (mem_cycleOps h).imp_right (Or.imp_right fun hc => ?_)
  cases rst with
  | true => exact .inl ⟨List.mem_singleton.1 hc, .inl rfl⟩
  | false => exact (mem_decodeReq hc).imp_left fun ⟨hi, hs⟩ => ⟨hi, .inr hs⟩

/-- No top-level request asks for an operation of the RingBuffer layer. -/
theorem isRing_of_mem_decodeCycle_top {rst sample : Bool} {req : Req} {i : Instr}
    (h : i ∈ decodeCycle (.top rst sample req)) : i.isRing = false := by
  obtain rfl | rfl | ⟨rfl, -⟩ | rfl | rfl := mem_decodeCycle_top h <;> rfl

/-! ### The four operations -/

/-- Settles O6: the next state is `pushed v s`, and a push is of the RingBuffer layer. -/
theorem rbPushWritesAtHead : Obligations.RbPushWritesAtHead := by
  refine ⟨fun v s => ⟨pushed v s, exec_rbPush v s, Memory.read_write_same _ _ _,
      fun a ha => Memory.read_write_ne _ _ ha, rfl, rfl, ⟨rfl, rfl, rfl⟩, ⟨rfl, rfl⟩, rfl,
      pushed_available v s, pushed_count v s⟩,
    fun s rbReq h18 h17 h16 => ?_, fun rbReq h18 h17 => ?_, fun rst sample req v h => ?_⟩
  · rw [runCycle_ringBuffer, h18, h17, h16]
    rfl
  · rw [decodeRbReq_eq, h18, h17]
    simp
  · cases isRing_of_mem_decodeCycle_top h

/-- Settles O7: RB.POP completes exactly on a non-empty buffer, whose oldest entry is at `tail`. -/
theorem rbPopReturnsOldest : Obligations.RbPopReturnsOldest := by
  refine ⟨fun s => exec_rbPop_nonempty, fun s t h => ?_, fun s => exec_rbPop_empty,
    fun s rbReq h18 h17 h16 => ?_, fun rbReq h18 h16 => ?_⟩
  · obtain ⟨hne, rfl⟩ := rbPop_next h
    have hpos : 0 < s.count := (count_pos_iff s).2 hne
    have hcount : (popped s).count = s.count - 1 := popped_count s hne
    exact ⟨popped_available_false_iff hne, by omega, (tail_live_iff s).2 hpos⟩
  · rw [runCycle_ringBuffer, h18, h17, h16]
    rfl
  · rw [decodeRbReq_eq, h18, h16]
    simp

/-- Settles O5: the next state is `ringInit s`, and the only top-level way to it is SETUP, which bit 34 asks for. -/
theorem rbInitResetsIndices : Obligations.RbInitResetsIndices := by
  refine ⟨exec_rbInit, fun s t h => ?_, fun s rbReq h18 => ?_, exec_setup,
    fun req sample h34 => ⟨fun h => ?_, fun h => ?_⟩⟩
  · obtain rfl := next_inj ((exec_rbInit s).symm.trans h)
    exact ⟨ringInit_available s, (queue_eq_nil_iff _).2 rfl, runOps_cons_next h [.rbInit]⟩
  · rw [runCycle_ringBuffer, h18]
    rfl
  · have hcases := mem_decodeCycle_top h
    rw [h34] at hcases
    simp at hcases
  · cases isRing_of_mem_decodeCycle_top h

/-- Settles O8: the sampled idle word decodes to RB.AVAILABLE alone. -/
theorem rbAvailableReadsFlag : Obligations.RbAvailableReadsFlag := fun s =>
  ⟨exec_rbAvailable s, available_iff s, runCycle_of_decode (Laws.RoundTrip.rbAvailable rfl) s⟩

/-! ### The occupancy law (R62) -/

/-- The state after pushes of `vs`, in order. -/
def pushedAll : List Word → State → State
  | [], s => s
  | v :: vs, s => pushedAll vs (pushed v s)

theorem runOps_map_rbPush (vs : List Word) (s : State) : runOps (vs.map .rbPush) s = .next (pushedAll vs s) := by
  induction vs generalizing s with
  | nil => rfl
  | cons v vs ih => exact (runOps_cons_next (exec_rbPush v s) _).trans (ih (pushed v s))

theorem pushedAll_head_toNat (vs : List Word) (s : State) :
    (pushedAll vs s).head.toNat = (s.head.toNat + vs.length) % 128 := by
  induction vs generalizing s with
  | nil => exact (Nat.mod_eq_of_lt s.head.isLt).symm
  | cons v vs ih =>
    have hstep : (pushed v s).head.toNat = (s.head.toNat + 1) % 128 := BitVec.toNat_add s.head 1
    rw [pushedAll, ih, hstep, List.length_cons]
    omega

theorem pushedAll_count (vs : List Word) (s : State) :
    (pushedAll vs s).count = min (s.count + vs.length) 127 := by
  induction vs generalizing s with
  | nil =>
    have hlt := count_lt s
    rw [pushedAll, List.length_nil]
    omega
  | cons v vs ih =>
    rw [pushedAll, ih, pushed_count, List.length_cons]
    omega

/-- `tail` stands `count` places behind `head`, so `head` and the count determine it. -/
theorem tail_toNat (s : State) : s.tail.toNat = (s.head.toNat + 128 - s.count) % 128 := by
  simp only [State.count]
  bv_omega

theorem available_eq_decide_count (s : State) : s.available = decide (s.count ≠ 0) := by
  rw [Bool.eq_iff_iff, decide_eq_true_iff, available_iff, ne_eq, ne_eq, empty_iff_count]

/-- Settles O47: over k pushes `head` moves k places and the count follows the law of one push;
the two determine `tail`. -/
theorem occupancyLaw : Obligations.OccupancyLaw := by
  refine ⟨fun v s t h => ?_, fun s t h => ?_, fun s t h => ?_, fun s t h => ?_, fun s vs => ?_⟩
  · obtain rfl := next_inj ((exec_rbPush v s).symm.trans h)
    exact pushed_count v s
  · obtain ⟨hne, rfl⟩ := rbPop_next h
    exact ⟨(count_pos_iff s).2 hne, popped_count s hne⟩
  · obtain rfl := next_inj ((exec_rbInit s).symm.trans h)
    exact ringInit_count s
  · obtain rfl := next_inj ((exec_rbAvailable s).symm.trans h)
    exact ⟨rfl, by rw [available_eq_decide_count]⟩
  · have hcount : (pushedAll vs (ringInit s)).count = min vs.length 127 := by
      rw [pushedAll_count, ringInit_count, Nat.zero_add]
    have hhead : (pushedAll vs (ringInit s)).head.toNat = vs.length % 128 := by
      rw [pushedAll_head_toNat, show (ringInit s).head.toNat = 0 from rfl, Nat.zero_add]
    refine ⟨_, (runOps_cons_next (exec_rbInit s) _).trans (runOps_map_rbPush vs _), hcount, hhead, ?_⟩
    rw [tail_toNat, hhead, hcount]
    split <;> omega

end Sys2Proof.Machine
end

section
/-! The operations of the SignalDecoder, one by one: the statements of 41_signal_decoder.md R65 to R74. -/

namespace Sys2Proof.Machine

/-! ### What SETUP, AVAILABLE and POP answer (R65, R72, R73) -/

theorem exec_available (s : State) :
    exec .available s = .next { s with returned := s.returned ++ [.bit s.available] } := rfl

theorem exec_pop (s : State) : exec .pop s = exec .rbPop s := rfl

/-- What a top-level request word asks for, by its bits. -/
theorem decodeReq_eq (req : Req) :
    decodeReq req =
      if req.getLsbD 34 then [.setup]
      else (if req.getLsbD 32 then [.pop] else []) ++
        (if req.getLsbD 33 then [.edge (req.setWidth 32)] else []) := by
  rw [← reqNow_eq]
  rfl

/-- Settles O2: the next state is written out, and both bit 34 and `rst` select SETUP alone. -/
theorem setupClearsRegistersKeepsBuf : Obligations.SetupClearsRegistersKeepsBuf := by
  refine ⟨exec_setup, fun s t h => ?_, fun s req h34 => ?_, runCycle_top_rst⟩
  · obtain rfl := next_inj ((exec_setup s).symm.trans h)
    exact ⟨(available_false_iff _).2 rfl, runOps_cons_next h [.setup]⟩
  · rw [runCycle_top, h34]
    rfl

/-- Settles O21: the sampled idle word decodes to AVAILABLE alone. -/
theorem availableDelegates : Obligations.AvailableDelegates := fun s =>
  ⟨exec_available s, (exec_available s).trans (exec_rbAvailable s).symm,
    runCycle_of_decode (Laws.RoundTrip.available rfl) s⟩

/-- Settles O22: POP is RB.POP, which completes exactly on a non-empty buffer. -/
theorem popDelegates : Obligations.PopDelegates := by
  refine ⟨exec_pop, fun s => exec_pop_nonempty, fun s t h => ?_, fun s => exec_rbPop_empty,
    fun s req h34 h33 h32 => ?_, fun req h34 h32 => ?_⟩
  · obtain ⟨hne, rfl⟩ := rbPop_next ((exec_pop s).symm.trans h)
    exact popped_available_false_iff hne
  · rw [runCycle_top, h34, h33, h32]
    rfl
  · rw [decodeReq_eq, h34, h32]
    simp

/-! ### The interval (R67) -/

theorem elapsedSince_toNat (last now : Time) :
    (elapsedSince last now).toNat = (now.toNat + 2 ^ 32 - last.toNat) % 2 ^ 32 := by
  have hlt := last.isLt
  rw [elapsedSince, BitVec.toNat_sub]
  congr 1
  omega

/-- A true interval below 2^32 is measured as it is, whether or not the timestamp wraps. -/
theorem elapsedSince_ofNat_add (last : Time) {d : Nat} (h : d < 2 ^ 32) :
    (elapsedSince last (BitVec.ofNat 32 (last.toNat + d))).toNat = d := by
  have hlt := last.isLt
  rw [elapsedSince_toNat, BitVec.toNat_ofNat]
  omega

/-- An EDGE completes only from a legal count. -/
theorem legal_of_edge_next {now : Time} {s t : State} (h : exec (.edge now) s = .next t) :
    s.bitsAccumulated.toNat < 16 := by
  by_contra hn
  cases (edge_illegal now (Nat.le_of_not_lt hn)).symm.trans h

/-- Whatever its symbol, an EDGE that completes stores its timestamp. -/
theorem edge_next_lastEdgeTime {now : Time} {s t : State} (h : exec (.edge now) s = .next t) :
    t.lastEdgeTime = now := by
  rcases edge_cases now (legal_of_edge_next h) with ⟨b, -, -, he⟩ | ⟨b, -, -, he⟩ | ⟨-, he⟩ <;>
    obtain rfl := next_inj (he.symm.trans h) <;> rfl

/-- Settles O12, by the arithmetic of subtraction modulo 2^32 and the three cases of EDGE. -/
theorem elapsedIsModularDifference : Obligations.ElapsedIsModularDifference :=
  ⟨elapsedSince_toNat, fun last _ => elapsedSince_ofNat_add last, fun _ _ _ => edge_next_lastEdgeTime⟩

/-! ### The cases of EDGE by their symbol (R68 to R70) -/

/-- A case of EDGE whose symbol is the interval's is the EDGE. -/
theorem edgeCase_eq_edge {sym : Symbol} {now : Time} {s : State} (h : classify (now - s.lastEdgeTime) = sym) :
    edgeCase sym now s = exec (.edge now) s := by
  subst h
  exact edgeCase_selected rfl

/-- FRAME_RESET restarts the count and leaves accumulator and ring alone. -/
theorem edge_resets {now : Time} {s : State} (hc : classify (now - s.lastEdgeTime) = .frameReset)
    (h : s.bitsAccumulated.toNat < 16) :
    exec (.edge now) s = .next { s with lastEdgeTime := now, bitsAccumulated := 0 } := by
  obtain ⟨b, hb, -⟩ | ⟨b, hb, -⟩ | ⟨-, he⟩ := edge_cases now h
  · exact absurd (hb.symm.trans hc) (dataSymbol_ne b)
  · exact absurd (hb.symm.trans hc) (dataSymbol_ne b)
  · exact he

/-- An EDGE of a data bit shifts it in; below fifteen it counts it, at fifteen it pushes the accumulator. -/
theorem edge_data_effect {b : Bool} {now : Time} {s : State}
    (hc : classify (now - s.lastEdgeTime) = dataSymbol b) (h : s.bitsAccumulated.toNat < 16) :
    ∃ t, exec (.edge now) s = .next t ∧ t.lastEdgeTime = now ∧
      t.inProgressWord.getLsbD 0 = b ∧
      (∀ k, k < 15 → t.inProgressWord.getLsbD (k + 1) = s.inProgressWord.getLsbD k) ∧
      t.returned = s.returned ∧ sameEnvironment s t ∧
      (s.bitsAccumulated.toNat < 15 → t.bitsAccumulated.toNat = s.bitsAccumulated.toNat + 1 ∧ sameRing s t) ∧
      (s.bitsAccumulated.toNat = 15 → t.bitsAccumulated = 0 ∧
        t.buf.read s.head.toNat = some t.inProgressWord ∧ sameArrayBut s.head s t ∧
        t.head = s.head + 1 ∧ t.tail = (if s.head + 1 = s.tail then s.tail + 1 else s.tail)) := by
  have hlow := shiftIn_getLsbD_zero s.inProgressWord b
  have hhigh : ∀ k, k < 15 → (shiftIn s.inProgressWord b).getLsbD (k + 1) = s.inProgressWord.getLsbD k :=
    fun k hk => shiftIn_getLsbD_succ s.inProgressWord b (by omega)
  by_cases h15 : s.bitsAccumulated.toNat = 15
  · exact ⟨_, edge_completes hc h15, rfl, hlow, hhigh, rfl, ⟨rfl, rfl⟩, fun hlt => by omega,
      fun _ => ⟨rfl, Memory.read_write_same _ _ _, fun a ha => Memory.read_write_ne _ _ ha, rfl, rfl⟩⟩
  · exact ⟨_, edge_counts hc (by omega), rfl, hlow, hhigh, rfl, ⟨rfl, rfl⟩,
      fun _ => ⟨count_succ_toNat h, sameRing_refl _⟩, fun h' => absurd h' h15⟩

/-- Settles O14: below 1200 the data bit is 0, and the case is the EDGE. -/
theorem edgeZeroShiftsInZero : Obligations.EdgeZeroShiftsInZero := by
  intro now s hlegal hlt
  have hc : classify (now - s.lastEdgeTime) = dataSymbol false := classify_of_lt hlt
  obtain ⟨t, he, heffect⟩ := edge_data_effect hc hlegal
  exact ⟨t, (edgeCase_eq_edge hc).trans he, he, heffect⟩

/-- Settles O15: in 1200..2399 the data bit is 1, and the case is the EDGE. -/
theorem edgeOneShiftsInOne : Obligations.EdgeOneShiftsInOne := by
  intro now s hlegal hge hlt
  have hc : classify (now - s.lastEdgeTime) = dataSymbol true := classify_of_between hge hlt
  obtain ⟨t, he, heffect⟩ := edge_data_effect hc hlegal
  exact ⟨t, (edgeCase_eq_edge hc).trans he, he, heffect⟩

/-- Settles O16: an interval of 2400 or more is FRAME_RESET, and the case is the EDGE. -/
theorem edgeFrameResetRestartsCount : Obligations.EdgeFrameResetRestartsCount := by
  intro now s hlegal hge
  have hc : classify (now - s.lastEdgeTime) = .frameReset := classify_of_ge hge
  have he := edge_resets hc hlegal
  exact ⟨(edgeCase_eq_edge hc).trans he, he⟩

/-! ### The emission (R71) -/

/-- Settles O17: of the three things an EDGE can do, only the completion of a word pushes. -/
theorem emissionPushesAccumulator : Obligations.EmissionPushesAccumulator := by
  intro now s hlegal
  obtain ⟨b, hc, h15, he⟩ | ⟨b, -, hlt, he⟩ | ⟨hc, he⟩ := edge_cases now hlegal
  · refine ⟨_, he, fun _ _ => ⟨rfl, _, exec_rbPush _ s, rfl, rfl, rfl⟩, fun hn => ?_⟩
    obtain hn | hn := hn
    · exact absurd (BitVec.eq_of_toNat_eq h15) hn
    · exact absurd (hc.symm.trans hn) (dataSymbol_ne b)
  · refine ⟨_, he, fun h15 _ => ?_, fun _ => ⟨rfl, rfl, rfl⟩⟩
    exact absurd (h15 ▸ hlt) (by decide)
  · exact ⟨_, he, fun _ hn => absurd hc hn, fun _ => ⟨rfl, rfl, rfl⟩⟩

/-! ### The pseudocode of EDGE (R66) -/

/-- A data bit's interval is below 2400, and its threshold at 1200 chooses the bit shifted in. -/
theorem bounds_of_dataSymbol {e : Time} {b : Bool} (h : classify e = dataSymbol b) :
    e.toNat < 2400 ∧
    ∀ w : Word, (if e.toNat < 1200 then w <<< 1 else if e.toNat < 2400 then w <<< 1 ||| 1 else w) = shiftIn w b := by
  obtain ⟨hzero, hone, -⟩ := classify_iff e
  cases b with
  | false =>
    have hlt : e.toNat < 1200 := hzero.1 h
    exact ⟨by omega, fun w => (if_pos hlt).trans BitVec.or_zero.symm⟩
  | true =>
    obtain ⟨hge, hlt⟩ := hone.1 h
    exact ⟨hlt, fun w => (if_neg (by omega)).trans (if_pos hlt)⟩

theorem count_succ_eq_sixteen_iff (n : Count) : n + 1 = 16 ↔ n.toNat = 15 := by bv_omega

/-- Settles O11: the three things an EDGE can do are the branches of the pseudocode. -/
theorem edgeFollowsPseudocode : Obligations.EdgeFollowsPseudocode := by
  refine ⟨fun now s hlegal => ?_, fun s req h34 h33 h32 => ?_, fun req h34 h33 => ?_⟩
  · dsimp only
    obtain ⟨b, hc, h15, he⟩ | ⟨b, hc, hlt, he⟩ | ⟨hc, he⟩ := edge_cases now hlegal
    · obtain ⟨hdata, hword⟩ := bounds_of_dataSymbol hc
      rw [he, hword, if_pos hdata, if_pos ((count_succ_eq_sixteen_iff _).2 h15)]
      rfl
    · obtain ⟨hdata, hword⟩ := bounds_of_dataSymbol hc
      rw [he, hword, if_pos hdata, if_neg (mt (count_succ_eq_sixteen_iff _).1 (by omega))]
      rfl
    · have hge : 2400 ≤ (now - s.lastEdgeTime).toNat := (classify_iff _).2.2.1 hc
      have hone : ¬(now - s.lastEdgeTime).toNat < 2400 := by omega
      have hzero : ¬(now - s.lastEdgeTime).toNat < 1200 := by omega
      rw [he, if_neg hone, if_neg hzero, if_neg hone, if_neg (show (0 : Count) ≠ 16 by decide)]
  · rw [runCycle_top, h34, h33, h32]
    rfl
  · rw [decodeReq_eq, h34, h33]
    simp

/-! ### The first EDGE after SETUP (R74) -/

theorem shiftIn_zero (b : Bool) : shiftIn 0 b = if b then 1 else 0 := by cases b <;> decide

/-- Settles O4: after SETUP the interval is `now` itself, so its class is that of the timestamp. -/
theorem initialEdgeClassifiesTimestamp : Obligations.InitialEdgeClassifiesTimestamp := by
  intro s now
  rw [runOps_cons_next (exec_setup s), runOps_singleton]
  have hnow : now - (0 : Time) = now := BitVec.sub_zero now
  obtain ⟨hlt, hc⟩ | ⟨hge, hlt, hc⟩ | ⟨hge, hc⟩ := classify_cases now <;> rw [← hnow] at hc
  · exact ⟨_, edge_counts (b := false) hc (Nat.zero_lt_succ _), rfl, fun _ => by omega,
      fun _ => ⟨rfl, shiftIn_zero false⟩, fun _ _ => by omega, rfl⟩
  · exact ⟨_, edge_counts (b := true) hc (Nat.zero_lt_succ _), rfl, fun _ => by omega, fun _ => by omega,
      fun _ _ => ⟨rfl, shiftIn_zero true⟩, rfl⟩
  · exact ⟨_, edge_resets hc (Nat.zero_lt_succ _), rfl, fun _ => ⟨rfl, rfl⟩, fun _ => by omega,
      fun _ _ => by omega, rfl⟩

end Sys2Proof.Machine
end

section
/-! The clock cycle of IRDEC: the statements of 42_cycle_step.md R83 to R85. -/

namespace Sys2Proof.Machine

/-! ### Idle operations (R85) -/

theorem runOps_replicate_nop (n : Nat) (is : List Instr) (s : State) :
    runOps (List.replicate n .nop ++ is) s = runOps is s := by
  induction n with
  | zero => rfl
  | succ n ih => exact (runOps_cons_next (show exec .nop s = .next s from rfl) _).trans ih

/-- Settles O9: an idle word decodes to the idle operation, and a run goes on through NOPs in the same state. -/
theorem idleOperationsChangeNothing : Obligations.IdleOperationsChangeNothing := by
  refine ⟨fun s => ⟨rfl, rfl⟩, fun s req h34 h33 h32 => ?_, fun s rbReq h18 h17 h16 => ?_,
    fun s before after n => ?_⟩
  · rw [runCycle_top, h34, h33, h32]
    rfl
  · rw [runCycle_ringBuffer, h18, h17, h16]
    rfl
  · simp only [runOps_append before, runOps_replicate_nop]

/-! ### A cycle with a POP (R83) -/

theorem runOps_cons_fault {i : Instr} {s : State} {r : Fault} (h : exec i s = .fault r) (is : List Instr) :
    runOps (i :: is) s = .fault r := by rw [runOps_cons, h]

/-- The POP of a cycle comes first, before the EDGE that bit 33 asks for. -/
theorem runCycle_pop_first {req : Req} (h34 : req.getLsbD 34 = false) (h32 : req.getLsbD 32 = true) (s : State) :
    runCycle (.top false false req) s =
      runOps (.pop :: if req.getLsbD 33 then [.edge (req.setWidth 32)] else []) s := by
  rw [runCycle_top, h34, h32]
  cases req.getLsbD 33 with
  | false => exact (runOps_singleton .pop s).symm
  | true => rfl

theorem rdData_of_nonempty {s : State} (h : s.head ≠ s.tail) : s.rdData = some (s.slot s.tail) :=
  if_pos ((available_iff s).2 h)

/-- Settles O23: the command bits select the operations, and POP, being first, alone decides whether the cycle faults. -/
theorem cyclePriorityAndOrder : Obligations.CyclePriorityAndOrder := by
  intro s rst req
  refine ⟨fun h => ?_, ?_, ?_, fun hne => ?_, ?_, ?_, ?_⟩
  · rw [runCycle_top, if_pos ((Bool.or_eq_true _ _).mpr h)]
  · rintro rfl h34 h32 h33
    rw [runCycle_pop_first h34 h32, h33]
    exact ⟨fun t ht => (runOps_cons_next ht _).trans (runOps_singleton _ t), fun r hr => runOps_cons_fault hr _⟩
  · rintro he rfl h34 h32
    exact (runCycle_pop_first h34 h32 s).trans (runOps_cons_fault (exec_rbPop_empty he) _)
  · exact ⟨popped s, _, exec_pop_nonempty hne, rdData_of_nonempty hne, rfl, rfl⟩
  -- POP alone, EDGE alone, no command: the bits select one branch of the cycle.
  all_goals
    rintro rfl h34 h32 h33
    rw [runCycle_top, h34, h32, h33]
    rfl

/-! ### The outputs (R84) -/

theorem rdData_isSome (s : State) : s.rdData.isSome = s.available := by
  by_cases h : s.available = true <;> simp [State.rdData, h]

/-- An EDGE hands nothing back. -/
theorem edge_next_returned {now : Time} {s t : State} (h : exec (.edge now) s = .next t) :
    t.returned = s.returned := by
  rcases edge_cases now (legal_of_edge_next h) with ⟨b, -, -, he⟩ | ⟨b, -, -, he⟩ | ⟨-, he⟩ <;>
    obtain rfl := next_inj (he.symm.trans h) <;> rfl

/-- A cycle with a POP completes only on a non-empty buffer, and hands back the word of its POP alone. -/
theorem runCycle_pop_next {req : Req} {s t : State} (h34 : req.getLsbD 34 = false) (h32 : req.getLsbD 32 = true)
    (h : runCycle (.top false false req) s = .next t) :
    s.head ≠ s.tail ∧ t.returned = s.returned ++ [.word (s.slot s.tail)] := by
  rw [runCycle_pop_first h34 h32] at h
  by_cases he : s.head = s.tail
  · cases (runOps_cons_fault (exec_rbPop_empty he) _).symm.trans h
  · rw [runOps_cons_next (exec_pop_nonempty he)] at h
    refine ⟨he, ?_⟩
    split at h
    · exact edge_next_returned ((runOps_singleton _ _).symm.trans h)
    · obtain rfl := next_inj h
      rfl

/-- Settles O26: a POP hands back the word at the old `tail`, which is what `rd_data` shows; an EDGE after it adds none. -/
theorem popReturnsShownWord : Obligations.PopReturnsShownWord := by
  refine ⟨fun s => ⟨rfl, by rw [rdData_isSome], rdData_of_nonempty⟩, fun s t req h34 h32 h => ?_⟩
  obtain ⟨hne, hret⟩ := runCycle_pop_next h34 h32 h
  exact ⟨_, rdData_of_nonempty hne, hret⟩

end Sys2Proof.Machine
end

section
/-! The fault PopEmpty is final for the trace: the statement of 60_exceptions.md R90. -/

namespace Sys2Proof.Machine

/-- A run that completes is left behind: what comes after it runs in the state it reached. -/
theorem runOps_append_next {is : List Instr} {r s : State} (h : runOps is r = .next s) (js : List Instr) :
    runOps (is ++ js) r = runOps js s := by rw [runOps_append, h]

/-- R90: an operation that faults in the state a run has reached gives the whole trace its fault. -/
theorem runOps_append_cons_fault {is : List Instr} {i : Instr} {r s : State} {f : Fault}
    (hs : runOps is r = .next s) (hf : exec i s = .fault f) (js : List Instr) :
    runOps (is ++ i :: js) r = .fault f :=
  (runOps_append_next hs _).trans (runOps_cons_fault hf js)

/-- Settles O10: POP is RB.POP, which faults on an empty buffer, and a fault ends the run that meets it. -/
theorem popOnEmptyIsPopEmpty : Obligations.PopOnEmptyIsPopEmpty := by
  intro s he
  have hrb : exec .rbPop s = .fault .popEmpty := exec_rbPop_empty he
  have hpop : exec .pop s = .fault .popEmpty := (exec_pop s).trans hrb
  exact ⟨hpop, hrb, fun before after r hs =>
    ⟨runOps_append_cons_fault hs hpop after, runOps_append_cons_fault hs hrb after⟩⟩

end Sys2Proof.Machine
end

section
/-! SETUP and RB.INIT performed twice, and what SETUP forgets: the statement of 70_reset_and_hazards.md R106. -/

namespace Sys2Proof.Machine

/-- An operation that keeps the state it leads to gives, performed twice, what it gives once. -/
theorem runOps_twice_of_fixed {i : Instr} {s t : State} (h : exec i s = .next t) (hfix : exec i t = .next t) :
    runOps [i, i] s = runOps [i] s := by
  rw [runOps_cons_next h, runOps_singleton, runOps_singleton, hfix, h]

/-- Settles O3: SETUP and RB.INIT each keep the state they lead to, and SETUP writes constants to the five registers. -/
theorem setupAndInitIdempotent : Obligations.SetupAndInitIdempotent := by
  refine ⟨fun s => ⟨runOps_twice_of_fixed (exec_setup s) (exec_setup _),
    runOps_twice_of_fixed (exec_rbInit s) (exec_rbInit _)⟩, fun s s' => ?_⟩
  exact ⟨_, _, exec_setup s, exec_setup s', rfl, rfl, rfl, rfl, rfl,
    (queue_eq_nil_iff _).2 rfl, (available_false_iff _).2 rfl, fun _ => rfl⟩

end Sys2Proof.Machine
end

section
/-! The live entries as a bounded queue over pushes, pops and edges: the statements of 10_state.md R22, 40_ringbuffer.md R63 and
41_signal_decoder.md R76. -/

namespace Sys2Proof.Machine

/-! ### The queue under POP (R22, R59) -/

/-- The oldest entry of a non-empty buffer is at `tail`, and a pop leaves the others. -/
theorem queue_eq_cons_popped {s : State} (h : s.head ≠ s.tail) :
    s.queue = s.slot s.tail :: (popped s).queue := by
  obtain ⟨n, hn⟩ : ∃ n, s.count = n + 1 := Nat.exists_eq_succ_of_ne_zero (mt (empty_iff_count s).2 h)
  have hp : (popped s).count = n := by rw [popped_count s h, hn, Nat.add_sub_cancel]
  rw [State.queue, State.queue, hn, hp, List.range_succ_eq_map, List.map_cons, List.map_map]
  refine congrArg₂ List.cons (congrArg s.slot (BitVec.add_zero _)) (List.map_congr_left fun k _ => ?_)
  refine congrArg s.slot ?_
  rw [Nat.succ_eq_add_one, Nat.add_comm, BitVec.ofNat_add, ← BitVec.add_assoc]
  rfl

/-- A pop of the queue `w :: rest` takes `w` and leaves `rest`. -/
theorem popped_of_queue_cons {s : State} {w : Word} {rest : List Word} (h : s.queue = w :: rest) :
    s.head ≠ s.tail ∧ s.slot s.tail = w ∧ (popped s).queue = rest := by
  have hne : s.head ≠ s.tail := fun he => by cases ((queue_eq_nil_iff s).2 he).symm.trans h
  exact ⟨hne, List.cons_eq_cons.1 ((queue_eq_cons_popped hne).symm.trans h)⟩

theorem exec_pop_of_queue_cons {s : State} {w : Word} {rest : List Word} (h : s.queue = w :: rest) :
    ∃ t, exec .pop s = .next t ∧ t.queue = rest ∧ t.returned = s.returned ++ [.word w] := by
  obtain ⟨hne, rfl, hrest⟩ := popped_of_queue_cons h
  exact ⟨popped s, exec_pop_nonempty hne, hrest, rfl⟩

/-- Settles O48, by the queue after a push and after a pop. -/
theorem ringBufferIsBoundedQueue : Obligations.RingBufferIsBoundedQueue := by
  intro s
  have hlt := count_lt s
  refine ⟨fun v => ⟨_, exec_rbPush v s, pushed_queue v s⟩, fun w rest => exec_pop_of_queue_cons,
    fun h => exec_rbPop_empty ((queue_eq_nil_iff s).1 h),
    ⟨_, exec_rbInit s, (queue_eq_nil_iff _).2 rfl⟩, ⟨_, exec_setup s, (queue_eq_nil_iff _).2 rfl⟩, ?_,
    (queue_eq_nil_iff s).symm, by rw [queue_length]; omega⟩
  rw [available_iff, ne_eq, ne_eq, queue_eq_nil_iff]

/-- Below 127 words `enqueue` adds one at the new end. -/
theorem enqueue_of_lt {q : List Word} (h : q.length < 127) (v : Word) : enqueue q v = q ++ [v] := by
  rw [enqueue, if_pos h]

/-- At 127 words `enqueue` drops the oldest. -/
theorem enqueue_of_full {q : List Word} {w : Word} (h : (w :: q).length = 127) (v : Word) :
    enqueue (w :: q) v = q ++ [v] := by
  rw [enqueue, if_neg (by omega), List.drop_one, List.tail_cons]

/-! ### A POP and an EDGE that completes a word (R83, R111) -/

/-- Settles O24: the POP comes first and leaves 126 words, so the push of the EDGE evicts none. -/
theorem sameCyclePopMakesRoom : Obligations.SameCyclePopMakesRoom := by
  intro s now oldest rest h15 hdata hfull hq
  obtain ⟨b, hc⟩ := (symbol_cases _).resolve_left hdata
  obtain ⟨hne, rfl, hrest⟩ := popped_of_queue_cons hq
  have hcount : (popped s).count = 126 := by rw [popped_count s hne, hfull]
  have hlen : rest.length = 126 := by rw [← hrest, queue_length, hcount]
  have hdecode : decodeCycle (.top false false (reqWord false true true now)) = [.pop, .edge now] := by
    simp [decodeCycle, decodeReq_reqWord, cycleOps]
  have hrun := runOps_cons_next (exec_pop_nonempty hne) [.edge now]
  rw [runOps_singleton, edge_completes (s := popped s) hc (congrArg BitVec.toNat h15), ← hdecode] at hrun
  refine ⟨_, hrun, (pushed_count _ _).trans (congrArg (fun n => min (n + 1) 127) hcount), rfl, ?_⟩
  have hroom : (completed b now (popped s)).queue = rest := hrest
  rw [pushed_queue, hroom, enqueue_of_lt (by omega)]
  rfl

/-- Settles O54: the push of the EDGE evicts the oldest word, so the POP takes the one after it. -/
theorem evictionBetweenCheckAndPop : Obligations.EvictionBetweenCheckAndPop := by
  intro s now oldest second rest h15 hdata hfull hq
  obtain ⟨b, hc⟩ := (symbol_cases _).resolve_left hdata
  have hlen : (oldest :: second :: rest).length = 127 := by
    rw [← hq, queue_length, ← full_iff_count, ← full_iff, hfull]
  have hpush : (pushed (shiftIn s.inProgressWord b) (completed b now s)).queue =
      second :: (rest ++ [shiftIn s.inProgressWord b]) := by
    rw [pushed_queue]
    exact (congrArg (enqueue · _) hq).trans (enqueue_of_full hlen _)
  obtain ⟨t, hpop, -, hret⟩ := exec_pop_of_queue_cons hpush
  refine ⟨t, ?_, hret⟩
  rw [runOps_cons_next (edge_completes hc (congrArg BitVec.toNat h15)), runOps_singleton, hpop]

/-! ### A POP after edges (R110) -/

/-- An EDGE of a legal count completes and leaves the count legal and a non-empty buffer non-empty. -/
theorem edge_keeps_available (now : Time) {s : State} (hlegal : s.bitsAccumulated.toNat < 16)
    (ha : s.available = true) :
    ∃ t, exec (.edge now) s = .next t ∧ t.bitsAccumulated.toNat < 16 ∧ t.available = true := by
  obtain ⟨b, -, -, he⟩ | ⟨b, -, hlt, he⟩ | ⟨-, he⟩ := edge_cases now hlegal
  · exact ⟨_, he, Nat.zero_lt_succ 15, pushed_available _ _⟩
  · have hcount : (counted b now s).bitsAccumulated.toNat = s.bitsAccumulated.toNat + 1 :=
      count_succ_toNat hlegal
    exact ⟨_, he, by omega, ha⟩
  · exact ⟨_, he, Nat.zero_lt_succ 15, ha⟩

/-- Settles O53: `available` outlives every EDGE, and where it is true a POP completes. -/
theorem checkedPopSurvivesEdges : Obligations.CheckedPopSurvivesEdges := by
  intro s nows hlegal ha
  induction nows generalizing s with
  | nil => exact ⟨s, popped s, rfl, ha, exec_pop_nonempty ((available_iff s).1 ha)⟩
  | cons now nows ih =>
    obtain ⟨t, he, hlegal', ha'⟩ := edge_keeps_available now hlegal ha
    rw [List.map_cons, runOps_cons_next he]
    exact ih t hlegal' ha'

/-! ### Several pushes (R63) -/

theorem pushedAll_queue (vs : List Word) (s : State) : (pushedAll vs s).queue = vs.foldl enqueue s.queue := by
  induction vs generalizing s with
  | nil => rfl
  | cons v vs ih => rw [pushedAll, ih, pushed_queue, List.foldl_cons]

/-- `enqueue` keeps the newest 127 words. -/
theorem enqueue_eq_drop {q : List Word} (h : q.length ≤ 127) (v : Word) :
    enqueue q v = (q ++ [v]).drop (q.length + 1 - 127) := by
  rw [List.drop_append_of_le_length (by omega), enqueue]
  split
  · rw [Nat.sub_eq_zero_of_le (by omega), List.drop_zero]
  · rw [show q.length + 1 - 127 = 1 by omega]

/-- Several words put in a bounded queue leave the newest 127 of all. -/
theorem foldl_enqueue_eq_drop (vs : List Word) {q : List Word} (h : q.length ≤ 127) :
    vs.foldl enqueue q = (q ++ vs).drop (q.length + vs.length - 127) := by
  induction vs generalizing q with
  | nil => rw [List.append_nil, List.length_nil, Nat.add_zero, Nat.sub_eq_zero_of_le h]; rfl
  | cons v vs ih =>
    have hlen : (enqueue q v).length = min (q.length + 1) 127 := by
      rw [enqueue_eq_drop h, List.length_drop, List.length_append, List.length_singleton]
      omega
    have happ : q ++ v :: vs = (q ++ [v]) ++ vs := (List.append_cons q v vs)
    have hle : q.length + 1 - 127 ≤ (q ++ [v]).length := by
      rw [List.length_append, List.length_singleton]
      omega
    have hdrop : q.length + 1 - 127 + (min (q.length + 1) 127 + vs.length - 127) =
        q.length + (vs.length + 1) - 127 := by omega
    rw [List.foldl_cons, ih (by omega), hlen, enqueue_eq_drop h, ← List.drop_append_of_le_length hle,
      List.drop_drop, ← happ, List.length_cons, hdrop]

/-- Pushes into an empty buffer leave the newest 127 words. -/
theorem pushedAll_queue_of_empty {s : State} (h : s.head = s.tail) (vs : List Word) :
    (pushedAll vs s).queue = vs.drop (vs.length - 127) := by
  rw [pushedAll_queue, (queue_eq_nil_iff s).2 h, foldl_enqueue_eq_drop vs (Nat.zero_le _), List.nil_append,
    List.length_nil, Nat.zero_add]

/-- Settles O50: the pushes leave the newest 127 words. -/
theorem overflowKeepsNewest : Obligations.OverflowKeepsNewest := fun s vs he _ =>
  ⟨_, runOps_map_rbPush vs s, pushedAll_queue_of_empty he vs⟩

theorem pushedAll_returned (vs : List Word) (s : State) : (pushedAll vs s).returned = s.returned := by
  induction vs generalizing s with
  | nil => rfl
  | cons v vs ih => exact ih (pushed v s)

/-- A check before each pop of the queue `vs`, and a last one: each is answered, each word comes in its turn. -/
theorem runOps_check_and_pop {vs : List Word} {s : State} (h : s.queue = vs) :
    ∃ t, runOps (vs.flatMap (fun _ => [.rbAvailable, .rbPop]) ++ [.rbAvailable]) s = .next t ∧
      t.returned = s.returned ++ vs.flatMap (fun v => [.bit true, .word v]) ++ [.bit false] ∧
      t.head = t.tail := by
  induction vs generalizing s with
  | nil =>
    have he : s.head = s.tail := (queue_eq_nil_iff s).1 h
    refine ⟨_, (runOps_singleton _ s).trans (exec_rbAvailable s), ?_, he⟩
    rw [(available_false_iff s).2 he, List.flatMap_nil, List.append_nil]
  | cons v vs ih =>
    obtain ⟨hne, hv, hvs⟩ := popped_of_queue_cons h
    have hcheck : exec .rbAvailable s = .next (ringAvailable s) := exec_rbAvailable s
    have hpop : exec .rbPop (ringAvailable s) = .next (popped (ringAvailable s)) :=
      exec_rbPop_nonempty (s := ringAvailable s) hne
    obtain ⟨t, hrun, hret, he⟩ := ih (s := popped (ringAvailable s)) hvs
    refine ⟨t, ?_, ?_, he⟩
    · rw [List.flatMap_cons, List.append_assoc, List.cons_append, List.cons_append, List.nil_append,
        runOps_cons_next hcheck, runOps_cons_next hpop, hrun]
    · have hstep : (popped (ringAvailable s)).returned = s.returned ++ [.bit true] ++ [.word v] := by
        rw [← hv, ← (available_iff s).2 hne]
        rfl
      rw [hret, hstep, List.flatMap_cons]
      simp only [List.append_assoc, List.cons_append, List.nil_append]

/-- Settles O49: at most 127 words leave none out, and the checks and pops take them in order. -/
theorem fifoUpToUsableCapacity : Obligations.FifoUpToUsableCapacity := by
  intro s vs he hle
  have hq : (pushedAll vs s).queue = vs := by
    rw [pushedAll_queue_of_empty he, Nat.sub_eq_zero_of_le hle, List.drop_zero]
  obtain ⟨t, hrun, hret, ht⟩ := runOps_check_and_pop hq
  refine ⟨t, ?_, pushedAll_returned vs s ▸ hret, ht⟩
  rw [List.append_assoc, runOps_append_next (runOps_map_rbPush vs s), hrun]

/-! ### The words of a sequence of edges (R46, R76) -/

theorem shiftIn_ofNat (n : Nat) (b : Bool) : shiftIn (BitVec.ofNat 16 n) b = BitVec.ofNat 16 (2 * n + b.toNat) := by
  have hbit : (if b then 1 else 0 : Word) = BitVec.ofNat 16 b.toNat := by cases b <;> rfl
  have hdisj : BitVec.ofNat 16 n <<< 1 &&& (if b then 1 else 0 : Word) = 0 := by
    cases b
    · exact BitVec.and_zero
    · ext i
      simp
      omega
  rw [shiftIn, ← BitVec.add_eq_or_of_and_eq_zero _ _ hdisj, hbit, BitVec.shiftLeft_eq_mul_twoPow,
    BitVec.ofNat_add, BitVec.ofNat_mul, BitVec.mul_comm]
  rfl

/-- Bits shifted into the accumulator are the digits of a number modulo 2^16. -/
theorem foldl_shiftIn_ofNat (bits : List Bool) (n : Nat) :
    bits.foldl shiftIn (BitVec.ofNat 16 n) = BitVec.ofNat 16 (bits.foldl (fun n b => 2 * n + b.toNat) n) := by
  induction bits generalizing n with
  | nil => rfl
  | cons b bits ih => rw [List.foldl_cons, List.foldl_cons, shiftIn_ofNat, ih]

theorem foldl_digits_eq (bits : List Bool) (n : Nat) :
    bits.foldl (fun n b => 2 * n + b.toNat) n =
      n * 2 ^ bits.length + bits.foldl (fun n b => 2 * n + b.toNat) 0 := by
  induction bits generalizing n with
  | nil => simp
  | cons b bits ih =>
    rw [List.foldl_cons, List.foldl_cons, ih, ih (2 * 0 + _), List.length_cons]
    ring

/-- R46, R80: sixteen bits shifted in are the whole word, whatever the accumulator held before. -/
theorem foldl_shiftIn_eq_wordOfBits {bits : List Bool} (h : bits.length = 16) (w : Word) :
    bits.foldl shiftIn w = wordOfBits bits := by
  have hw := foldl_shiftIn_ofNat bits w.toNat
  rw [BitVec.ofNat_toNat, BitVec.setWidth_eq, foldl_digits_eq, h] at hw
  rw [hw, wordOfBits]
  apply BitVec.eq_of_toNat_eq
  simp

/-- R76: the data bit that completes sixteen gives a word, and the next one starts afresh. -/
theorem wordsOf_completes {pending : List Bool} (b : Bool) (rest : List Symbol) (h : pending.length = 15) :
    wordsOf pending (dataSymbol b :: rest) = wordOfBits (pending ++ [b]) :: wordsOf [] rest := by
  have hc : completeWord (pending ++ [b]) = some (wordOfBits (pending ++ [b])) := if_pos (by simp [h])
  cases b <;> simp only [dataSymbol, wordsOf, if_true, Bool.false_eq_true, if_false, hc]

/-- R76: a data bit before that waits with the others. -/
theorem wordsOf_counts {pending : List Bool} (b : Bool) (rest : List Symbol) (h : pending.length < 15) :
    wordsOf pending (dataSymbol b :: rest) = wordsOf (pending ++ [b]) rest := by
  have hc : completeWord (pending ++ [b]) = none :=
    if_neg (by rw [List.length_append, List.length_singleton]; omega)
  cases b <;> simp only [dataSymbol, wordsOf, if_true, Bool.false_eq_true, if_false, hc]

/-- With the bits `pending` shifted in and counted, edges push the words their symbols stand for after these bits. -/
theorem run_edges_queue {nows : List Time} {s : State} {pending : List Bool} {w : Word}
    (hw : s.inProgressWord = pending.foldl shiftIn w) (hn : s.bitsAccumulated.toNat = pending.length)
    (hlt : pending.length < 16) :
    ∃ t, runOps (nows.map .edge) s = .next t ∧
      t.queue = (wordsOf pending (symbolsFrom s.lastEdgeTime nows)).foldl enqueue s.queue := by
  induction nows generalizing s pending w with
  | nil => exact ⟨s, rfl, by rw [symbolsFrom, wordsOf]; rfl⟩
  | cons now nows ih =>
    have hshift : ∀ b, shiftIn s.inProgressWord b = (pending ++ [b]).foldl shiftIn w := fun b => by
      rw [hw, List.foldl_append]
      rfl
    have hsyms : symbolsFrom s.lastEdgeTime (now :: nows) =
      classify (now - s.lastEdgeTime) :: symbolsFrom now nows := rfl
    rw [List.map_cons, hsyms]
    obtain ⟨b, hc, h15, he⟩ | ⟨b, hc, h15, he⟩ | ⟨hc, he⟩ := edge_cases now (hn ▸ hlt) <;>
      rw [runOps_cons_next he, hc]
    · have hword : shiftIn s.inProgressWord b = wordOfBits (pending ++ [b]) :=
        (hshift b).trans (foldl_shiftIn_eq_wordOfBits (by simp; omega) w)
      obtain ⟨t, hrun, hq⟩ := ih (s := pushed (shiftIn s.inProgressWord b) (completed b now s)) (pending := [])
        (w := shiftIn s.inProgressWord b) rfl rfl (by decide)
      refine ⟨t, hrun, ?_⟩
      rw [hq, wordsOf_completes b _ (by omega), List.foldl_cons, pushed_queue, hword]
      rfl
    · have hcount : (counted b now s).bitsAccumulated.toNat = s.bitsAccumulated.toNat + 1 :=
        count_succ_toNat (by omega)
      obtain ⟨t, hrun, hq⟩ := ih (s := counted b now s) (hshift b) (by simp; omega) (by simp; omega)
      exact ⟨t, hrun, by rw [hq, wordsOf_counts b _ (by omega)]; rfl⟩
    · obtain ⟨t, hrun, hq⟩ := ih (s := { s with lastEdgeTime := now, bitsAccumulated := 0 }) (pending := [])
        (w := s.inProgressWord) rfl rfl (by decide)
      exact ⟨t, hrun, by rw [hq, wordsOf]; rfl⟩

/-- Settles O52: from a count of 0 no bit is pending. -/
theorem edgesPushTheWordsOfTheirSymbols : Obligations.EdgesPushTheWordsOfTheirSymbols := fun s _ h0 =>
  run_edges_queue (pending := []) (w := s.inProgressWord) rfl (by rw [h0]; rfl) (by decide)

end Sys2Proof.Machine
end

section
/-! What an operation may change, what it hands back and where it stops: the statements of 10_state.md R23 and R24,
20_memory.md R32, 30_encoding.md R42 and 60_exceptions.md R89 to R98. -/

namespace Sys2Proof.Machine

/-! ### EDGE and its three cases (R42, R66) -/

/-- The case of EDGE that a symbol names is the EDGE held to that symbol. -/
theorem exec_edgeCaseOf (sym : Symbol) (now : Time) (s : State) :
    exec (edgeCaseOf sym now) s = edgeCase sym now s := by cases sym <;> rfl

/-- The case that the interval selects is the EDGE. -/
theorem exec_resolveEdge (now : Time) (s : State) :
    exec (resolveEdge s.lastEdgeTime now) s = exec (.edge now) s :=
  (exec_edgeCaseOf _ now s).trans (edgeCase_eq_edge rfl)

/-- Settles O18: a case whose symbol is the interval's is the EDGE. -/
theorem edgeRunsItsSelectedCase : Obligations.EdgeRunsItsSelectedCase := fun now s =>
  ⟨(exec_resolveEdge now s).symm, fun h => (edgeCase_eq_edge h).symm, fun h => (edgeCase_eq_edge h).symm,
    fun h => (edgeCase_eq_edge h).symm⟩

/-- Settles O19: a case taken alone is held to its symbol. -/
theorem unselectedEdgeCaseStops : Obligations.UnselectedEdgeCaseStops := fun sym now s h =>
  (exec_edgeCaseOf sym now s).trans (edgeCase_not_selected h)

/-- Settles O20: the EDGE is refused, and with it the case it resolves to; SETUP reads no count. -/
theorem edgeOutsideLegalCountStops : Obligations.EdgeOutsideLegalCountStops := fun now s h =>
  ⟨edge_illegal now h, (exec_resolveEdge now s).trans (edge_illegal now h), _, exec_setup s, rfl⟩

/-- An EDGE that pushes nothing leaves both indices, and does after a POP what it does before it. -/
theorem silent_edge_popped {now : Time} {s : State} (h : s.bitsAccumulated.toNat < 15 ∨
      (s.bitsAccumulated.toNat < 16 ∧ classify (now - s.lastEdgeTime) = .frameReset)) :
    ∃ t, exec (.edge now) s = .next t ∧ t.head = s.head ∧ t.tail = s.tail ∧
      exec (.edge now) (popped s) = .next (popped t) := by
  have hlegal : s.bitsAccumulated.toNat < 16 := by omega
  obtain ⟨b, hc, h15, -⟩ | ⟨b, hc, hlt, he⟩ | ⟨hc, he⟩ := edge_cases now hlegal
  · obtain hlt | ⟨-, hf⟩ := h
    · omega
    · exact absurd (hc.symm.trans hf) (dataSymbol_ne b)
  · exact ⟨_, he, rfl, rfl, edge_counts (s := popped s) hc hlt⟩
  · exact ⟨_, he, rfl, rfl, edge_resets (s := popped s) hc hlegal⟩

/-- Settles O25: the EDGE leaves the POP's indices, so both orders fault or both end in the same state. -/
theorem popAndSilentEdgeCommute : Obligations.PopAndSilentEdgeCommute := by
  intro s now h
  obtain ⟨t, he, hhead, htail, hpopped⟩ := silent_edge_popped h
  rw [runOps_cons_next he, runOps_singleton]
  by_cases hempty : s.head = s.tail
  · have hempty' : t.head = t.tail := by rw [hhead, htail, hempty]
    exact (runOps_cons_fault (exec_rbPop_empty hempty) _).trans (exec_rbPop_empty hempty').symm
  · have hne : t.head ≠ t.tail := by rwa [hhead, htail]
    rw [runOps_cons_next (exec_pop_nonempty hempty), runOps_singleton, hpopped, exec_pop_nonempty hne]

/-! ### Faults and refusals (R89, R90) -/

theorem edgeWith_ne_fault (sym : Symbol) (now : Time) (s : State) (r : Fault) : edgeWith sym now s ≠ .fault r := by
  obtain ⟨-, he⟩ | ⟨-, he⟩ := edgeWith_cases sym now s <;> rw [he] <;> nofun

theorem edgeCase_ne_fault (sym : Symbol) (now : Time) (s : State) (r : Fault) : edgeCase sym now s ≠ .fault r := by
  by_cases hc : classify (s.elapsed now) = sym
  · rw [edgeCase_selected hc]
    exact edgeWith_ne_fault sym now s r
  · rw [edgeCase_not_selected hc]
    nofun

theorem ringPop_fault {s : State} {r : Fault} (h : ringPop s = .fault r) : r = .popEmpty ∧ s.head = s.tail := by
  obtain ⟨he, hf⟩ | ⟨-, hn⟩ := ringPop_cases s
  · cases hf.symm.trans h
    exact ⟨rfl, he⟩
  · cases hn.symm.trans h

/-- The one fault is a POP's, on an empty buffer. -/
theorem exec_fault {i : Instr} {s : State} {r : Fault} (h : exec i s = .fault r) :
    r = .popEmpty ∧ isPop i = true ∧ s.head = s.tail := by
  cases i with
  | rbPop | pop => exact ⟨(ringPop_fault h).1, rfl, (ringPop_fault h).2⟩
  | edge now => exact absurd h (edgeWith_ne_fault _ now s r)
  | edgeZero now | edgeOne now | edgeFrameReset now => exact absurd h (edgeCase_ne_fault _ now s r)
  | rbInit | rbPush | rbAvailable | rbNop | setup | available | nop => cases h

/-- The one refusal of an operation that can be requested is an EDGE's, with an illegal count. -/
theorem exec_refused {i : Instr} {s : State} {r : Refusal} (h : exec i s = .refused r) (hi : i.requestable = true) :
    r = .countOutOfRange ∧ i.setsEdge = true ∧ 16 ≤ s.bitsAccumulated.toNat := by
  cases i with
  | rbPop | pop => obtain ⟨-, he⟩ | ⟨-, he⟩ := ringPop_cases s <;> cases he.symm.trans h
  | edge now =>
    obtain ⟨-, he⟩ | ⟨hge, he⟩ := edgeWith_cases (classify (s.elapsed now)) now s <;> cases he.symm.trans h
    exact ⟨rfl, rfl, hge⟩
  | edgeZero now | edgeOne now | edgeFrameReset now => cases hi
  | rbInit | rbPush | rbAvailable | rbNop | setup | available | nop => cases h

/-- Settles O40, by the operations that can stop: POP and EDGE. -/
theorem onlyEmptyPopFaults : Obligations.OnlyEmptyPopFaults := fun _ _ =>
  ⟨fun _ => exec_fault, fun _ => exec_refused⟩

/-- An operation that can be requested completes from a legal count, if it is no POP or the buffer is not empty. -/
theorem exec_completes {i : Instr} {s : State} (hi : i.requestable = true) (hlegal : s.bitsAccumulated.toNat < 16)
    (hpop : isPop i = true → s.available = true) : ∃ t, exec i s = .next t := by
  cases he : exec i s with
  | next t => exact ⟨t, rfl⟩
  | fault r =>
    obtain ⟨-, hp, hempty⟩ := exec_fault he
    exact absurd hempty ((available_iff s).1 (hpop hp))
  | refused r =>
    obtain ⟨-, -, hge⟩ := exec_refused he hi
    omega

/-! ### What an operation hands back (R98) -/

/-- Whatever its symbol, an EDGE that completes leaves the environment's fields alone. -/
theorem edge_next_environment {now : Time} {s t : State} (h : exec (.edge now) s = .next t) :
    sameEnvironment s t := by
  obtain ⟨b, -, -, he⟩ | ⟨b, -, -, he⟩ | ⟨-, he⟩ := edge_cases now (legal_of_edge_next h) <;>
    obtain rfl := next_inj (he.symm.trans h) <;> exact ⟨rfl, rfl⟩

/-- No operation changes the input trace or the power-on contents. -/
theorem exec_next_environment {i : Instr} {s t : State} (h : exec i s = .next t) : sameEnvironment s t := by
  obtain ⟨-, rfl⟩ | ⟨-, rfl⟩ | ⟨-, -, rfl⟩ | ⟨-, rfl⟩ | ⟨-, rfl⟩ | ⟨v, -, rfl⟩ | ⟨-, -, he⟩ := exec_next_cases h
  on_goal 7 => exact edge_next_environment he
  all_goals exact ⟨rfl, rfl⟩

/-- EDGE and its cases are no AVAILABLE. -/
theorem isAvailable_of_setsEdge {i : Instr} (h : i.setsEdge = true) : isAvailable i = false := by
  cases i <;> simp [Instr.setsEdge, isAvailable] at h ⊢

/-- Settles O37, by what each operation that completes hands back. -/
theorem operationsLeaveEnvironment : Obligations.OperationsLeaveEnvironment := by
  intro i s t h
  refine ⟨exec_next_environment h, ?_⟩
  obtain ⟨rfl, rfl⟩ | ⟨rfl, rfl⟩ | ⟨hp, hne, rfl⟩ | ⟨ha, rfl⟩ | ⟨rfl | rfl, rfl⟩ | ⟨v, rfl, rfl⟩ |
    ⟨he, -, hx⟩ := exec_next_cases h
  · exact ⟨fun _ _ => rfl, nofun, nofun⟩
  · exact ⟨fun _ _ => rfl, nofun, nofun⟩
  · obtain rfl | rfl := isPop_cases hp <;> exact ⟨nofun, nofun, fun _ => ⟨_, rdData_of_nonempty hne, rfl⟩⟩
  · obtain rfl | rfl := isAvailable_cases ha <;> exact ⟨nofun, fun _ => rfl, nofun⟩
  · exact ⟨fun _ _ => rfl, nofun, nofun⟩
  · exact ⟨fun _ _ => rfl, nofun, nofun⟩
  · exact ⟨fun _ _ => rfl, nofun, nofun⟩
  · obtain ⟨-, hp, -⟩ := class_of_setsEdge he
    have ha := isAvailable_of_setsEdge he
    exact ⟨fun _ _ => edge_next_returned hx, fun h' => by simp [ha] at h', fun h' => by simp [hp] at h'⟩

/-! ### Who may write what (R23, R32) -/

/-- A push moves `tail` only on a full buffer. -/
theorem full_of_pushed_tail_ne {v : Word} {s : State} (h : (pushed v s).tail ≠ s.tail) : s.full = true := by
  rw [full_iff]
  by_contra hn
  exact h (pushed_tail_of_not_full v hn)

theorem sameDecoder_refl (s : State) : sameDecoder s s := ⟨rfl, rfl, rfl⟩

/-- Settles O42, by what each operation that completes leaves. -/
theorem onlyOwnersChangeState : Obligations.OnlyOwnersChangeState := by
  intro i s t h
  obtain ⟨rfl, rfl⟩ | ⟨rfl, rfl⟩ | ⟨hp, hne, rfl⟩ | ⟨ha, rfl⟩ | ⟨rfl | rfl, rfl⟩ | ⟨v, rfl, rfl⟩ |
    ⟨he, hlegal, hx⟩ := exec_next_cases h
  · exact ⟨fun _ _ => sameDecoder_refl s, nofun, fun _ _ => rfl, nofun, nofun⟩
  · exact ⟨fun _ hn => absurd rfl hn, nofun, fun _ _ => rfl, nofun, nofun⟩
  · obtain rfl | rfl := isPop_cases hp <;>
      exact ⟨fun _ _ => sameDecoder_refl s, fun _ _ _ => rfl, fun _ _ => rfl, nofun, nofun⟩
  · exact ⟨fun _ _ => sameDecoder_refl s, fun _ _ _ => rfl, fun _ _ => rfl, fun _ _ hn => absurd rfl hn,
      fun _ => ⟨sameDecoder_refl s, sameRing_refl s⟩⟩
  · exact ⟨fun _ _ => sameDecoder_refl _, fun _ _ _ => rfl, fun _ _ => rfl, fun _ _ hn => absurd rfl hn, nofun⟩
  · exact ⟨fun _ _ => sameDecoder_refl _, fun _ _ _ => rfl, fun _ _ => rfl, fun _ _ hn => absurd rfl hn, nofun⟩
  · exact ⟨fun _ _ => sameDecoder_refl s, nofun, nofun, fun _ _ hn => ⟨.inr rfl, full_of_pushed_tail_ne hn⟩, nofun⟩
  · have ha := isAvailable_of_setsEdge he
    refine ⟨by simp [he], by simp [he], by simp [he], fun _ _ hn => ⟨.inl he, ?_⟩, by simp [ha]⟩
    obtain ⟨-, -, htail, -⟩ | ⟨-, -, htail, -⟩ := edge_ring_cases he hlegal hx
    · exact full_of_pushed_tail_ne (htail ▸ hn)
    · exact absurd htail hn

/-- Settles O43: of the effects on the ring only a push writes the array, at the old `head`. -/
theorem storesOnlyAtHead : Obligations.StoresOnlyAtHead := by
  intro i s t h
  obtain ⟨hs, -, -, hhead, -, harray⟩ | ⟨hs, -, -, -, -, -, harray⟩ | ⟨hs, -, -, -, -, harray⟩ |
    ⟨hs, -, -, -, -, harray⟩ := exec_ring_cases h <;> rw [hs]
  · refine ⟨fun _ => ⟨?_, fun a ha => ?_, hhead⟩, nofun⟩
    · exact (harray _).trans (Memory.read_write_same _ _ _)
    · exact (harray a).trans (Memory.read_write_ne _ _ ha)
  all_goals exact ⟨nofun, fun _ => harray⟩

/-! ### Live slots (R19, R24) -/

theorem live_eq_of_sameRing {s t : State} (h : sameRing s t) (x : Index) : t.live x = s.live x := by
  obtain ⟨hh, ht, -⟩ := h
  rw [Bool.eq_iff_iff, live_iff, live_iff, State.count, State.count, hh, ht]

/-- A pop takes the slot at `tail` out of the live range. -/
theorem popped_live_iff {s : State} (h : s.head ≠ s.tail) (x : Index) :
    (popped s).live x = true ↔ s.live x = true ∧ x ≠ s.tail := by
  rw [live_iff, live_iff, popped_count s h]
  simp only [popped, State.count]
  bv_omega

/-- A push puts the slot at `head` in the live range, and takes the one at `tail` out where the buffer is full. -/
theorem pushed_live_iff (v : Word) (s : State) (x : Index) :
    (pushed v s).live x = true ↔ (x = s.head ∨ s.live x = true) ∧ ¬(s.full = true ∧ x = s.tail) := by
  rw [live_iff, live_iff, full_iff]
  by_cases hf : s.head + 1 = s.tail
  · simp only [pushed, State.count, hf, if_true, true_and]
    bv_omega
  · simp only [pushed, State.count, hf, if_false, false_and, not_false_eq_true, and_true]
    bv_omega

/-- Settles O46, by the effect of the operation on the live range: a push, a pop, RB.INIT or none. -/
theorem liveWordsAreImmutable : Obligations.LiveWordsAreImmutable := by
  intro i s t x h hx
  obtain ⟨hs, -, -, hr⟩ | ⟨-, hp, -, hne, hr⟩ | ⟨-, -, hi, hr⟩ | ⟨-, -, -, hr⟩ := exec_ring_cases h <;>
    rw [live_eq_of_sameRing hr] <;> obtain ⟨-, -, harray⟩ := hr
  · refine ⟨(harray _).trans (pushed_read_ne _ (ne_head_of_live hx)), fun hn => ?_⟩
    rw [Bool.eq_false_iff, ne_eq, pushed_live_iff, not_and_not_right] at hn
    obtain ⟨hf, rfl⟩ := hn (.inr hx)
    exact .inl ⟨rfl, .inr ⟨hs, hf⟩⟩
  · refine ⟨harray _, fun hn => .inl ⟨?_, .inl hp⟩⟩
    by_contra hxt
    rw [(popped_live_iff hne x).2 ⟨hx, hxt⟩] at hn
    cases hn
  · exact ⟨harray _, fun _ => .inr hi⟩
  · exact ⟨harray _, fun hn => by rw [hx] at hn; cases hn⟩

end Sys2Proof.Machine
end

section
/-! Decoding and encoding of cycles: the statements of 30_encoding.md section 3 and section 6 and of 42_cycle_step.md R87. -/

namespace Sys2Proof.Machine

/-! ### The sequences of operations of one cycle (R86, R87) -/

/-- The commands of one cycle of IRDEC, if there are any. -/
theorem topCommands_cases {commands : List Instr} (h : commands = [] ∨ topCommands commands = true) :
    commands = [] ∨ commands = [.setup] ∨ commands = [.pop] ∨ (∃ now, commands = [.edge now]) ∨
      ∃ now, commands = [.pop, .edge now] := by
  obtain rfl | h := h
  · exact .inl rfl
  · revert h
    fun_cases topCommands commands <;> simp

/-- The commands of one cycle of the RingBuffer alone, if there are any. -/
theorem ringCommands_cases {commands : List Instr} (h : commands = [] ∨ ringCommands commands = true) :
    commands = [] ∨ commands = [.rbInit] ∨ commands = [.rbPop] ∨ (∃ v, commands = [.rbPush v]) ∨
      ∃ v, commands = [.rbPop, .rbPush v] := by
  obtain rfl | h := h
  · exact .inl rfl
  · revert h
    fun_cases ringCommands commands <;> simp

/-- A cycle of IRDEC: its commands, if any, behind the sampled output, if it is sampled. -/
def IsTopCycle (ops : List Instr) : Prop :=
  ∃ sample commands, (commands = [] ∨ topCommands commands = true) ∧ ops = cycleOps sample .available .nop commands

/-- A cycle of the RingBuffer alone, likewise. -/
def IsRingCycle (ops : List Instr) : Prop :=
  ∃ sample commands, (commands = [] ∨ ringCommands commands = true) ∧
    ops = cycleOps sample .rbAvailable .rbNop commands

theorem wellFormedCycle_iff (ops : List Instr) : wellFormedCycle ops = true ↔ IsTopCycle ops ∨ IsRingCycle ops := by
  constructor
  · fun_cases wellFormedCycle ops
    · exact fun _ => .inl ⟨false, [], .inl rfl, rfl⟩
    · exact fun _ => .inr ⟨false, [], .inl rfl, rfl⟩
    · exact fun _ => .inl ⟨true, [], .inl rfl, rfl⟩
    · exact fun _ => .inr ⟨true, [], .inl rfl, rfl⟩
    · exact fun h => .inl ⟨true, _, .inr h, rfl⟩
    · exact fun h => .inr ⟨true, _, .inr h, rfl⟩
    · rw [Bool.or_eq_true]
      have hunsampled : ∀ sampled idle, ops ≠ [] → ops = cycleOps false sampled idle ops := by
        cases ops with
        | nil => exact fun _ _ h => absurd rfl h
        | cons i is => exact fun _ _ _ => rfl
      rintro (h | h)
      · exact .inl ⟨false, ops, .inr h, hunsampled _ _ (by rintro rfl; cases h)⟩
      · exact .inr ⟨false, ops, .inr h, hunsampled _ _ (by rintro rfl; cases h)⟩
  · rintro (⟨sample, commands, h, rfl⟩ | ⟨sample, commands, h, rfl⟩)
    · obtain rfl | rfl | rfl | ⟨now, rfl⟩ | ⟨now, rfl⟩ := topCommands_cases h <;> cases sample <;> rfl
    · obtain rfl | rfl | rfl | ⟨v, rfl⟩ | ⟨v, rfl⟩ := ringCommands_cases h <;> cases sample <;> rfl

/-- The operations of a cycle can be requested. -/
theorem requestable_of_wellFormedCycle {ops : List Instr} (h : wellFormedCycle ops = true) :
    ∀ i ∈ ops, i.requestable = true := by
  rw [← List.all_eq_true]
  obtain ⟨sample, commands, hc, rfl⟩ | ⟨sample, commands, hc, rfl⟩ := (wellFormedCycle_iff ops).1 h
  · obtain rfl | rfl | rfl | ⟨now, rfl⟩ | ⟨now, rfl⟩ := topCommands_cases hc <;> cases sample <;> rfl
  · obtain rfl | rfl | rfl | ⟨v, rfl⟩ | ⟨v, rfl⟩ := ringCommands_cases hc <;> cases sample <;> rfl

/-! ### From pins to operations (R53) -/

/-- Every top-level request word asks for nothing or for commands of IRDEC. -/
theorem decodeReq_commands (req : Req) : decodeReq req = [] ∨ topCommands (decodeReq req) = true := by
  rw [decodeReq_eq]
  cases req.getLsbD 34 <;> cases req.getLsbD 32 <;> cases req.getLsbD 33 <;> simp [topCommands]

/-- Every sub-block request word asks for nothing or for commands of the RingBuffer. -/
theorem decodeRbReq_commands (rbReq : RbReq) : decodeRbReq rbReq = [] ∨ ringCommands (decodeRbReq rbReq) = true := by
  rw [decodeRbReq_eq]
  cases rbReq.getLsbD 18 <;> cases rbReq.getLsbD 16 <;> cases rbReq.getLsbD 17 <;> simp [ringCommands]

theorem decodeCycle_wellFormed (c : Cycle) : wellFormedCycle (decodeCycle c) = true := by
  rw [wellFormedCycle_iff]
  cases c with
  | top rst sample req =>
    refine .inl ⟨sample, _, ?_, rfl⟩
    cases rst with
    | true => exact .inr rfl
    | false => exact decodeReq_commands req
  | ringBuffer rst sample rbReq =>
    refine .inr ⟨sample, _, ?_, rfl⟩
    cases rst with
    | true => exact .inr rfl
    | false => exact decodeRbReq_commands rbReq

/-- Settles O34: whatever its bits, a request word asks for nothing or for commands of its layer. -/
theorem everyCycleIsWellFormed : Obligations.EveryCycleIsWellFormed := fun c =>
  ⟨decodeCycle_wellFormed c, requestable_of_wellFormedCycle (decodeCycle_wellFormed c)⟩

/-! ### From operations to pins (R55) -/

/-- The pins written for operations of IRDEC ask for those that stand in the sequence, in the order of R83. -/
theorem decodeCycle_encodeCycle_top {ops : List Instr} (h : ops.any Instr.isRing = false) :
    decodeCycle (encodeCycle ops) = cycleOps (ops.contains .available) .available .nop
      (if ops.contains .setup then [.setup]
      else (if ops.contains .pop then [.pop] else []) ++
        (if ops.any Instr.setsEdge then [.edge (ops.getLastD .nop).nowField] else [])) := by
  rw [encodeCycle, if_neg (by simp [h]), decodeCycle, if_neg Bool.false_ne_true, decodeReq_reqWord]

/-- The pins written for operations of the RingBuffer ask for those that stand in the sequence, in the order of R86. -/
theorem decodeCycle_encodeCycle_ring {ops : List Instr} (h : ops.any Instr.isRing = true) :
    decodeCycle (encodeCycle ops) = cycleOps (ops.contains .rbAvailable) .rbAvailable .rbNop
      (if ops.contains .rbInit then [.rbInit]
      else (if ops.contains .rbPop then [.rbPop] else []) ++
        (if ops.any Instr.setsPush then [.rbPush (ops.getLastD .nop).valueField] else [])) := by
  rw [encodeCycle, if_pos h, decodeCycle, if_neg Bool.false_ne_true, decodeRbReq_rbReqWord]

/-- Settles O33: in each sequence of a well-formed cycle the order is that of the decoder, and the operand that of the last
operation. -/
theorem decodeOfEncode : Obligations.DecodeOfEncode := by
  intro ops h
  obtain ⟨sample, commands, hc, rfl⟩ | ⟨sample, commands, hc, rfl⟩ := (wellFormedCycle_iff ops).1 h
  · obtain rfl | rfl | rfl | ⟨now, rfl⟩ | ⟨now, rfl⟩ := topCommands_cases hc <;> cases sample <;>
      exact decodeCycle_encodeCycle_top rfl
  · obtain rfl | rfl | rfl | ⟨v, rfl⟩ | ⟨v, rfl⟩ := ringCommands_cases hc <;> cases sample <;>
      exact decodeCycle_encodeCycle_ring rfl

/-- Settles O32: eight words of the table, evaluated. -/
theorem traceWordsDecode : Obligations.TraceWordsDecode := by
  unfold Obligations.TraceWordsDecode
  decide

/-! ### Command bits by mask and match (R48, R50) -/

/-- A mask of three bits. -/
theorem and_or_twoPow {w : Nat} (x : BitVec w) (i j k : Nat) :
    x &&& (BitVec.twoPow w i ||| BitVec.twoPow w j ||| BitVec.twoPow w k) =
      (if x.getLsbD i then BitVec.twoPow w i else 0) ||| (if x.getLsbD j then BitVec.twoPow w j else 0) |||
        (if x.getLsbD k then BitVec.twoPow w k else 0) := by
  rw [BitVec.and_or_distrib_left, BitVec.and_or_distrib_left, BitVec.and_twoPow, BitVec.and_twoPow, BitVec.and_twoPow]
  rfl

/-- The command bits of a top-level request word are the word without its operand. -/
theorem req_and_commandMask (req : Req) :
    req &&& 0x700000000 = reqWord (req.getLsbD 34) (req.getLsbD 33) (req.getLsbD 32) 0 := by
  refine (and_or_twoPow req 34 33 32).trans ?_
  cases req.getLsbD 34 <;> cases req.getLsbD 33 <;> cases req.getLsbD 32 <;> decide

/-- The command bits of a sub-block request word are the word without its operand. -/
theorem rbReq_and_commandMask (rbReq : RbReq) :
    rbReq &&& 0x70000 = rbReqWord (rbReq.getLsbD 18) (rbReq.getLsbD 17) (rbReq.getLsbD 16) 0 := by
  refine (and_or_twoPow rbReq 18 17 16).trans ?_
  cases rbReq.getLsbD 18 <;> cases rbReq.getLsbD 17 <;> cases rbReq.getLsbD 16 <;> decide

/-- A mask of command bits sees no more of a top-level request word than they. -/
theorem req_and_of_commandMask {mask : Req} (h : 0x700000000 &&& mask = mask) (req : Req) :
    req &&& mask = reqWord (req.getLsbD 34) (req.getLsbD 33) (req.getLsbD 32) 0 &&& mask := by
  rw [← req_and_commandMask, BitVec.and_assoc, h]

/-- A mask of command bits sees no more of a sub-block request word than they. -/
theorem rbReq_and_of_commandMask {mask : RbReq} (h : 0x70000 &&& mask = mask) (rbReq : RbReq) :
    rbReq &&& mask = rbReqWord (rbReq.getLsbD 18) (rbReq.getLsbD 17) (rbReq.getLsbD 16) 0 &&& mask := by
  rw [← rbReq_and_commandMask, BitVec.and_assoc, h]

/-- Top-level request words with equal command bits have each of them equal. -/
theorem req_bits_eq {req req' : Req} (h : req &&& 0x700000000 = req' &&& 0x700000000) :
    req.getLsbD 34 = req'.getLsbD 34 ∧ req.getLsbD 33 = req'.getLsbD 33 ∧ req.getLsbD 32 = req'.getLsbD 32 := by
  rw [req_and_commandMask, req_and_commandMask] at h
  exact ⟨by simpa using congrArg reqSetup h, by simpa using congrArg reqEdge h, by simpa using congrArg reqPop h⟩

/-- Sub-block request words with equal command bits have each of them equal. -/
theorem rbReq_bits_eq {rbReq rbReq' : RbReq} (h : rbReq &&& 0x70000 = rbReq' &&& 0x70000) :
    rbReq.getLsbD 18 = rbReq'.getLsbD 18 ∧ rbReq.getLsbD 17 = rbReq'.getLsbD 17 ∧
      rbReq.getLsbD 16 = rbReq'.getLsbD 16 := by
  rw [rbReq_and_commandMask, rbReq_and_commandMask] at h
  exact ⟨by simpa using congrArg rbReqInit h, by simpa using congrArg rbReqPush h,
    by simpa using congrArg rbReqPop h⟩

/-- SETUP is read alone. -/
theorem decodeReq_of_mem_setup {req : Req} (h : .setup ∈ decodeReq req) : decodeReq req = [.setup] := by
  obtain ⟨-, h34⟩ | h | h := mem_decodeReq h
  · rw [decodeReq_eq, if_pos h34]
  · cases h
  · cases h

/-- Without an EDGE the decoder reads command bits only. -/
theorem decodeReq_congr {req req' : Req} (h : req &&& 0x700000000 = req' &&& 0x700000000)
    (hnow : req.getLsbD 33 = false ∨ req.getLsbD 34 = true) : decodeReq req = decodeReq req' := by
  obtain ⟨h34, h33, h32⟩ := req_bits_eq h
  rw [decodeReq_eq, decodeReq_eq, ← h34, ← h33, ← h32]
  obtain h | h := hnow <;> rw [h] <;> rfl

/-- Without an RB.PUSH the decoder reads command bits only. -/
theorem decodeRbReq_congr {rbReq rbReq' : RbReq} (h : rbReq &&& 0x70000 = rbReq' &&& 0x70000)
    (hvalue : rbReq.getLsbD 17 = false ∨ rbReq.getLsbD 18 = true) : decodeRbReq rbReq = decodeRbReq rbReq' := by
  obtain ⟨h18, h17, h16⟩ := rbReq_bits_eq h
  rw [decodeRbReq_eq, decodeRbReq_eq, ← h18, ← h17, ← h16]
  obtain h | h := hvalue <;> rw [h] <;> rfl

/-- Settles O30: a mask sees command bits only, and for each value of the three both sides are decided. -/
theorem requestPatternsSelectOperations : Obligations.RequestPatternsSelectOperations := by
  intro req
  refine ⟨?_, ?_, ?_, ?_, decodeReq_of_mem_setup, ?_, fun h => ?_, rfl, fun req' => decodeReq_congr⟩
  on_goal 6 => rw [decodeCycle, if_neg Bool.false_ne_true, h, cycleOps]
  all_goals
    rw [decodeReq_eq, req_and_of_commandMask (by decide)]
    cases req.getLsbD 34 <;> cases req.getLsbD 33 <;> cases req.getLsbD 32 <;> simp [reqWord]

/-- Settles O31: likewise for the command bits of the sub-block's word. -/
theorem rbRequestPatternsSelectOperations : Obligations.RbRequestPatternsSelectOperations := by
  intro rbReq
  refine ⟨?_, ?_, ?_, ?_, fun h => ?_, rfl, fun rbReq' => decodeRbReq_congr⟩
  on_goal 5 => rw [decodeCycle, if_neg Bool.false_ne_true, h, cycleOps]
  all_goals
    rw [decodeRbReq_eq, rbReq_and_of_commandMask (by decide)]
    cases rbReq.getLsbD 18 <;> cases rbReq.getLsbD 17 <;> cases rbReq.getLsbD 16 <;> simp [rbReqWord]

end Sys2Proof.Machine
end

section
/-! The step: which cycle it runs, that it keeps the invariant, that it completes, and what its run does not depend on.
The statements of 10_state.md R14, R22 and R25, 42_cycle_step.md R87, 70_reset_and_hazards.md R109 and
93_implementation_defined.md U2. -/

namespace Sys2Proof.Machine

/-! ### The cycle a step runs (R25) -/

/-- Settles O35: the cycle is taken off the trace, and of no trace the idle cycle's NOP is left. -/
theorem stepRunsDecodedCycle : Obligations.StepRunsDecodedCycle := by
  refine fun s => ⟨fun c rest hs => ⟨?_, fun i => step_of_decode hs⟩, fun hs => ?_⟩
  · rw [step, nextCycle, afterFetch, hs]
    rfl
  · have hself : s.setInput [] = s := by rw [← hs]; rfl
    rw [step, nextCycle, afterFetch, hs, List.tail_nil, hself]
    rfl

/-- A table word that asks for one instruction is a cycle's, and the cycle decodes to it. -/
theorem tableCycle_of_decodeTableWord {nbits w : Nat} {i : Instr} (h : decodeTableWord nbits w = some i) :
    ∃ c, tableCycle nbits w = .ok c ∧ decodeCycle c = [i] := by
  rw [decodeTableWord] at h
  split at h
  · rename_i c hc
    split at h
    · rename_i j hj
      obtain rfl := Option.some_inj.1 h
      exact ⟨c, hc, hj⟩
    · cases h
  · cases h

/-- Settles O36: presenting the word puts its cycle first, and the step takes it off again. -/
theorem presentedWordRunsItsInstruction : Obligations.PresentedWordRunsItsInstruction := by
  intro s nbits w i h
  obtain ⟨c, hc, hi⟩ := tableCycle_of_decodeTableWord h
  have hs : s.withFetchWord nbits w = s.setInput (c :: s.input) := by
    rw [State.withFetchWord, presentTableWord, hc]
  rw [hs]
  exact step_of_decode (s := s.setInput (c :: s.input)) rfl hi

/-! ### The invariant (R14, R22) -/

/-- A state without live entries has the invariant, if its count is legal and its array canonical. -/
theorem inv_of_empty {s : State} (hcount : s.bitsAccumulated.toNat < 16) (hbuf : s.buf.wf) (he : s.head = s.tail) :
    s.Inv where
  count_lt := hcount
  buf_wf := hbuf
  live_written x hx := by
    rw [live_iff, (empty_iff_count s).1 he] at hx
    exact absurd hx (Nat.not_lt_zero _)

/-- Settles O38: reset leaves the buffer empty. -/
theorem resetSatisfiesInvariant : Obligations.ResetSatisfiesInvariant :=
  inv_of_empty (Nat.zero_lt_succ 15) ⟨List.Pairwise.nil, nofun⟩ rfl

/-- A push writes the one slot it makes live. -/
theorem pushed_inv (v : Word) {s : State} (h : s.Inv) : (pushed v s).Inv where
  count_lt := h.count_lt
  buf_wf := Memory.write_wf h.buf_wf (Memory.index_lt_capacity s.head) v
  live_written x hx := by
    by_cases hxh : x = s.head
    · rw [hxh]
      exact congrArg Option.isSome (Memory.read_write_same _ _ _)
    · rw [pushed_read_ne v hxh]
      exact h.live_written x (((pushed_live_iff v s x).1 hx).1.resolve_left hxh)

/-- A pop makes no slot live. -/
theorem popped_inv {s : State} (h : s.Inv) (hne : s.head ≠ s.tail) : (popped s).Inv where
  count_lt := h.count_lt
  buf_wf := h.buf_wf
  live_written x hx := h.live_written x ((popped_live_iff hne x).1 hx).1

/-- The decoder registers, the trace and the returned values are free, but for the count. -/
theorem inv_of_same {s t : State} (h : s.Inv) (hcount : t.bitsAccumulated.toNat < 16) (hhead : t.head = s.head)
    (htail : t.tail = s.tail) (hbuf : t.buf = s.buf) : t.Inv where
  count_lt := hcount
  buf_wf := hbuf ▸ h.buf_wf
  live_written x hx := by
    rw [live_eq_of_sameRing (s := s) ⟨hhead, htail, fun _ => hbuf ▸ rfl⟩] at hx
    exact hbuf ▸ h.live_written x hx

theorem edge_next_inv {now : Time} {s t : State} (h : s.Inv) (he : exec (.edge now) s = .next t) : t.Inv := by
  obtain ⟨b, -, -, he'⟩ | ⟨b, -, hlt, he'⟩ | ⟨-, he'⟩ := edge_cases now h.count_lt <;>
    obtain rfl := next_inj (he'.symm.trans he)
  · exact pushed_inv _ (inv_of_same h (Nat.zero_lt_succ 15) rfl rfl rfl)
  · have hcount : (counted b now s).bitsAccumulated.toNat = s.bitsAccumulated.toNat + 1 := count_succ_toNat h.count_lt
    exact inv_of_same h (by omega) rfl rfl rfl
  · exact inv_of_same h (Nat.zero_lt_succ 15) rfl rfl rfl

/-- Every operation that completes keeps the invariant. -/
theorem exec_next_inv {i : Instr} {s t : State} (h : s.Inv) (he : exec i s = .next t) : t.Inv := by
  obtain ⟨-, rfl⟩ | ⟨-, rfl⟩ | ⟨-, hne, rfl⟩ | ⟨-, rfl⟩ | ⟨-, rfl⟩ | ⟨v, -, rfl⟩ | ⟨-, -, hx⟩ := exec_next_cases he
  · exact inv_of_empty h.count_lt h.buf_wf rfl
  · exact inv_of_empty (Nat.zero_lt_succ 15) h.buf_wf rfl
  · exact popped_inv h hne
  · exact inv_of_same h h.count_lt rfl rfl rfl
  · exact h
  · exact pushed_inv v h
  · exact edge_next_inv h hx

/-- A run that completes begins with an operation that completes. -/
theorem runOps_cons_eq_next {i : Instr} {is : List Instr} {s t : State} (h : runOps (i :: is) s = .next t) :
    ∃ u, exec i s = .next u ∧ runOps is u = .next t := by
  rw [runOps_cons] at h
  cases hu : exec i s with
  | next u => exact ⟨u, rfl, by rwa [hu] at h⟩
  | fault r => rw [hu] at h; cases h
  | refused r => rw [hu] at h; cases h

theorem runOps_next_inv {ops : List Instr} {s t : State} (h : s.Inv) (hrun : runOps ops s = .next t) : t.Inv := by
  induction ops generalizing s with
  | nil => exact next_inj hrun ▸ h
  | cons i is ih =>
    obtain ⟨u, hu, hrun⟩ := runOps_cons_eq_next hrun
    exact ih (exec_next_inv h hu) hrun

/-- The invariant asks nothing of the input trace. -/
theorem afterFetch_inv {s : State} (h : s.Inv) : (afterFetch s).Inv := inv_of_same h h.count_lt rfl rfl rfl

/-- Settles O39: a step is a run of operations, each of which keeps the invariant. -/
theorem stepKeepsInvariant : Obligations.StepKeepsInvariant := fun _ _ h hstep =>
  runOps_next_inv (afterFetch_inv h) hstep

/-! ### Progress (R109) -/

/-- No operation but AVAILABLE stands before a POP. -/
def popsEarly : List Instr → Bool
  | [] => true
  | i :: is => if isAvailable i then popsEarly is else is.all fun j => !isPop j

/-- In one cycle a POP is the first command. -/
theorem popsEarly_of_wellFormedCycle {ops : List Instr} (h : wellFormedCycle ops = true) : popsEarly ops = true := by
  obtain ⟨sample, commands, hc, rfl⟩ | ⟨sample, commands, hc, rfl⟩ := (wellFormedCycle_iff ops).1 h
  · obtain rfl | rfl | rfl | ⟨now, rfl⟩ | ⟨now, rfl⟩ := topCommands_cases hc <;> cases sample <;> rfl
  · obtain rfl | rfl | rfl | ⟨v, rfl⟩ | ⟨v, rfl⟩ := ringCommands_cases hc <;> cases sample <;> rfl

/-- Without a POP a run of operations that can be requested completes. -/
theorem runOps_completes_of_no_pop {ops : List Instr} {s : State} (h : s.Inv)
    (hreq : ∀ i ∈ ops, i.requestable = true) (hpop : ∀ i ∈ ops, isPop i = false) : ∃ t, runOps ops s = .next t := by
  induction ops generalizing s with
  | nil => exact ⟨s, rfl⟩
  | cons i is ih =>
    rw [List.forall_mem_cons] at hreq hpop
    obtain ⟨u, hu⟩ := exec_completes hreq.1 h.count_lt fun hp => absurd hp (by simp [hpop.1])
    rw [runOps_cons_next hu]
    exact ih (exec_next_inv h hu) hreq.2 hpop.2

/-- Nor does it stop with one POP, if that comes early and the buffer is not empty. -/
theorem runOps_completes_of_popsEarly {ops : List Instr} {s : State} (h : s.Inv)
    (hreq : ∀ i ∈ ops, i.requestable = true) (hearly : popsEarly ops = true)
    (hguard : (∃ i ∈ ops, isPop i = true) → s.available = true) : ∃ t, runOps ops s = .next t := by
  induction ops generalizing s with
  | nil => exact ⟨s, rfl⟩
  | cons i is ih =>
    rw [List.forall_mem_cons] at hreq
    obtain ⟨u, hu⟩ := exec_completes hreq.1 h.count_lt fun hp => hguard ⟨i, List.mem_cons_self, hp⟩
    have hinv : u.Inv := exec_next_inv h hu
    rw [runOps_cons_next hu]
    rw [popsEarly] at hearly
    split at hearly
    · rename_i ha
      obtain ⟨-, -, -, -, hkeeps⟩ := onlyOwnersChangeState i s u hu
      have hsame : u.available = s.available := available_eq_of_sameRing (hkeeps ha).2
      exact ih hinv hreq.2 hearly fun ⟨j, hj, hp⟩ => hsame ▸ hguard ⟨j, List.mem_cons_of_mem i hj, hp⟩
    · exact runOps_completes_of_no_pop hinv hreq.2 (by simpa using hearly)

/-- Settles O41: the cycle's POP, if any, comes early and is guarded. -/
theorem guardedCycleCompletes : Obligations.GuardedCycleCompletes := by
  intro s h hguard
  have hwf := decodeCycle_wellFormed (nextCycle s)
  refine runOps_completes_of_popsEarly (afterFetch_inv h) (requestable_of_wellFormedCycle hwf)
    (popsEarly_of_wellFormedCycle hwf) ?_
  rintro ⟨i, hi, hp⟩
  have ha : s.available = true := by
    obtain rfl | rfl := isPop_cases hp <;> simpa [popGuarded, hi] using hguard
  exact ha

/-! ### What a run does not depend on (R87, U2) -/

/-- The state with other cycles to come and other power-on contents. -/
def State.withEnvironment (s : State) (input : List Cycle) (powerOn : Nat) : State :=
  { s with input := input, powerOn := powerOn }

/-- An outcome with its next state, if any, changed. -/
def mapNext (f : State → State) : Outcome → Outcome
  | .next s => .next (f s)
  | .fault r => .fault r
  | .refused r => .refused r

section
variable {s : State} {cs : List Cycle} {p : Nat}

theorem ringPush_withEnvironment (v : Word) (s : State) :
    ringPush v (s.withEnvironment cs p) = (ringPush v s).withEnvironment cs p := by
  rw [ringPush_eq, ringPush_eq]
  rfl

theorem emission_withEnvironment (s : State) :
    emission (s.withEnvironment cs p) = (emission s).withEnvironment cs p := by
  by_cases h : s.bitsAccumulated.toNat = 16
  · rw [emission_of_sixteen h, emission_of_sixteen (s := s.withEnvironment cs p) h, ringPush_withEnvironment]
    rfl
  · rw [emission_of_lt h, emission_of_lt (s := s.withEnvironment cs p) h]

theorem edgeWith_withEnvironment (sym : Symbol) (now : Time) :
    edgeWith sym now (s.withEnvironment cs p) = mapNext (·.withEnvironment cs p) (edgeWith sym now s) := by
  have htransition : transition sym ((s.withEnvironment cs p).setLastEdgeTime now) =
      (transition sym (s.setLastEdgeTime now)).withEnvironment cs p := by cases sym <;> rfl
  by_cases h : s.bitsAccumulated.toNat < Config.bitsPerWord
  · rw [edgeWith, edgeWith, if_pos h, if_pos (show (s.withEnvironment cs p).bitsAccumulated.toNat < _ from h),
      htransition, emission_withEnvironment]
    rfl
  · rw [edgeWith, edgeWith, if_neg h, if_neg (show ¬(s.withEnvironment cs p).bitsAccumulated.toNat < _ from h)]
    rfl

theorem edgeCase_withEnvironment (sym : Symbol) (now : Time) :
    edgeCase sym now (s.withEnvironment cs p) = mapNext (·.withEnvironment cs p) (edgeCase sym now s) := by
  by_cases h : classify (s.elapsed now) = sym
  · rw [edgeCase_selected h, edgeCase_selected (s := s.withEnvironment cs p) h, edgeWith_withEnvironment]
  · rw [edgeCase_not_selected h, edgeCase_not_selected (s := s.withEnvironment cs p) h]
    rfl

theorem ringPop_withEnvironment (h : s.head ≠ s.tail → (s.withEnvironment cs p).slot s.tail = s.slot s.tail) :
    ringPop (s.withEnvironment cs p) = mapNext (·.withEnvironment cs p) (ringPop s) := by
  by_cases he : s.head = s.tail
  · rw [ringPop_empty he, ringPop_empty (s := s.withEnvironment cs p) he]
    rfl
  · have hslot : (s.withEnvironment cs p).slot (s.withEnvironment cs p).tail = s.slot s.tail := h he
    rw [ringPop_nonempty he, ringPop_nonempty (s := s.withEnvironment cs p) he, hslot]
    rfl

/-- No operation looks at the cycles to come, and only a POP can look at the power-on contents, in the slot at `tail`. -/
theorem exec_withEnvironment (i : Instr)
    (h : s.head ≠ s.tail → (s.withEnvironment cs p).slot s.tail = s.slot s.tail) :
    exec i (s.withEnvironment cs p) = mapNext (·.withEnvironment cs p) (exec i s) := by
  cases i with
  | rbPush v => exact congrArg Host.Outcome.next (ringPush_withEnvironment v s)
  | rbPop | pop => exact ringPop_withEnvironment h
  | edge now => exact edgeWith_withEnvironment _ now
  | edgeZero now | edgeOne now | edgeFrameReset now => exact edgeCase_withEnvironment _ now
  | rbInit | rbAvailable | rbNop | setup | available | nop => rfl

end

/-- A slot that a push has written reads the same whatever the power-on contents. -/
theorem slot_withEnvironment_of_written {s : State} {x : Index} (h : (s.buf.read x.toNat).isSome = true)
    (cs : List Cycle) (p : Nat) : (s.withEnvironment cs p).slot x = s.slot x := by
  obtain ⟨w, hw⟩ := Option.isSome_iff_exists.1 h
  have hbuf : (s.withEnvironment cs p).buf = s.buf := rfl
  rw [State.slot, State.slot, hbuf, hw, Option.getD_some, Option.getD_some]

/-- Settles O55: from a state of the invariant the slot a POP reads, being live, was written. -/
theorem unwrittenSlotsNeverShow : Obligations.UnwrittenSlotsNeverShow := by
  intro ops s t p h hrun
  induction ops generalizing s with
  | nil =>
    obtain rfl := next_inj hrun
    rfl
  | cons i is ih =>
    obtain ⟨u, hu, hrun⟩ := runOps_cons_eq_next hrun
    have hslot : s.head ≠ s.tail → (s.withEnvironment s.input p).slot s.tail = s.slot s.tail := fun hne =>
      slot_withEnvironment_of_written
        (h.live_written s.tail ((tail_live_iff s).2 ((count_pos_iff s).2 hne))) s.input p
    have hstep := exec_withEnvironment i hslot
    rw [hu] at hstep
    obtain ⟨hinput, -⟩ := exec_next_environment hu
    refine (runOps_cons_next hstep is).trans ?_
    rw [← hinput]
    exact ih u (exec_next_inv h hu) hrun

/-- An operation that can be requested is a cycle of its own. -/
theorem wellFormedCycle_singleton {i : Instr} (h : i.requestable = true) : wellFormedCycle [i] = true := by
  cases i with
  | edgeZero now | edgeOne now | edgeFrameReset now => cases h
  | _ => rfl

theorem decodeCycle_encode {i : Instr} (h : i.requestable = true) : decodeCycle (encode i) = [i] :=
  decodeOfEncode [i] (wellFormedCycle_singleton h)

/-- No operation looks at the cycles to come. -/
theorem exec_setInput (i : Instr) (s : State) (cs : List Cycle) :
    exec i (s.setInput cs) = mapNext (·.setInput cs) (exec i s) := by
  have h := exec_withEnvironment (s := s) (cs := cs) (p := s.powerOn) i fun _ => rfl
  cases he : exec i s with
  | next t =>
    obtain ⟨-, hpowerOn⟩ := exec_next_environment he
    have ht : t.withEnvironment cs s.powerOn = t.setInput cs := by rw [← hpowerOn]; rfl
    rw [he] at h
    exact h.trans (congrArg Host.Outcome.next ht)
  | fault r => rwa [he] at h
  | refused r => rwa [he] at h

/-- The step of a cycle written for one operation is that operation, with the cycle taken off. -/
theorem step_of_encode {i : Instr} (h : i.requestable = true) (cs : List Cycle) (s : State) :
    step (s.setInput (encode i :: cs)) = mapNext (·.setInput cs) (exec i (s.setInput [])) :=
  (step_of_decode (s := s.setInput (encode i :: cs)) rfl (decodeCycle_encode h)).trans
    (exec_setInput i (s.setInput []) cs)

theorem runOps_cons_refused {i : Instr} {s : State} {r : Refusal} (h : exec i s = .refused r) (is : List Instr) :
    runOps (i :: is) s = .refused r := by rw [runOps_cons, h]

/-- Settles O29: each step is its operation, which sees none of the cycles to come. -/
theorem oneOperationPerCycle : Obligations.OneOperationPerCycle := by
  intro ops s hreq
  induction ops generalizing s with
  | nil => rfl
  | cons i is ih =>
    rw [List.forall_mem_cons] at hreq
    have hstep := step_of_encode hreq.1 (is.map encode) s
    cases he : exec i (s.setInput []) with
    | next t =>
      have hinput : t.input = [] := (exec_next_environment he).1
      have ht : t.setInput [] = t := by rw [← hinput]; rfl
      have hrest : runOps (i :: is) (s.setInput []) = runOps is (t.setInput []) := by rw [runOps_cons_next he, ht]
      rw [he] at hstep
      exact (run_of_next _ hstep).trans ((ih t hreq.2).trans hrest.symm)
    | fault r =>
      rw [he] at hstep
      exact (run_of_fault _ hstep).trans (runOps_cons_fault he is).symm
    | refused r =>
      rw [he] at hstep
      exact (run_of_refused _ hstep).trans (runOps_cons_refused he is).symm

end Sys2Proof.Machine
end

section
/-! The RingBuffer alone and inside IRDEC: the statements of 42_cycle_step.md R86 and 30_encoding.md R50. -/

namespace Sys2Proof.Machine

/-! ### A cycle of the RingBuffer alone (R86) -/

/-- A cycle of the sub-block without RB.INIT performs RB.POP and then RB.PUSH, as its bits ask. -/
theorem runCycle_ringBuffer_commands {rbReq : RbReq} (h18 : rbReq.getLsbD 18 = false) (s : State) :
    runCycle (.ringBuffer false false rbReq) s =
      runOps ((if rbReq.getLsbD 16 then [.rbPop] else []) ++
        (if rbReq.getLsbD 17 then [.rbPush (rbReq.setWidth 16)] else [])) s := by
  rw [runCycle_ringBuffer, h18]
  cases rbReq.getLsbD 16 <;> cases rbReq.getLsbD 17
  · rfl
  · exact (runOps_singleton (.rbPush _) s).symm
  · exact (runOps_singleton .rbPop s).symm
  · rfl

/-- Settles O27: the command bits select the operations, and an RB.POP that faults ends the cycle. -/
theorem rbCyclePriorityAndOrder : Obligations.RbCyclePriorityAndOrder := by
  intro s rst rbReq
  refine ⟨fun h => ?_, ?_, ?_, ?_, ?_⟩
  · rw [runCycle_ringBuffer, if_pos ((Bool.or_eq_true _ _).mpr h)]
  · rintro rfl h18 h16 h17
    rw [runCycle_ringBuffer, h18, h16, h17]
    exact ⟨fun t ht => (runOps_cons_next ht _).trans (runOps_singleton _ t), fun r hr => runOps_cons_fault hr _⟩
  -- RB.POP alone, RB.PUSH alone, no command: the bits select one branch of the cycle.
  all_goals
    rintro rfl h18 h16 h17
    rw [runCycle_ringBuffer, h18, h16, h17]
    rfl

/-! ### The EDGE of a cycle and the request formed for it (R71, R86) -/

section
variable {req : Req} {s : State}

theorem shiftedWord_of_data {b : Bool} (hc : classify (req.setWidth 32 - s.lastEdgeTime) = dataSymbol b) :
    shiftedWord req s = shiftIn s.inProgressWord b := by
  rw [shiftedWord, State.elapsed, elapsedSince, reqNow_eq, hc]
  cases b <;> rfl

/-- The emission of an EDGE is its storing of a word. -/
theorem edgeEmits_eq_storesWord (hlegal : s.bitsAccumulated.toNat < 16) :
    edgeEmits req s = storesWord (.edge (req.setWidth 32)) s := by
  rw [Bool.eq_iff_iff, storesWord_iff_of_setsEdge rfl, edgeEmits, decide_eq_true_iff, State.elapsed, elapsedSince,
    reqNow_eq]
  obtain hc | ⟨b, hc⟩ := symbol_cases (classify (req.setWidth 32 - s.lastEdgeTime))
  · rw [hc]
    simp [transition, Config.bitsPerWord, Instr.nowField, hc]
  · have hcount : (transition (dataSymbol b) s).bitsAccumulated.toNat = s.bitsAccumulated.toNat + 1 := by
      cases b <;> exact count_succ_toNat hlegal
    have hdata : classify (Instr.nowField (.edge (req.setWidth 32)) - s.lastEdgeTime) ≠ .frameReset :=
      hc ▸ dataSymbol_ne b
    rw [hc, hcount, and_iff_left hdata, Config.bitsPerWord]
    omega

end

/-- A POP before the EDGE changes neither the word nor whether it is emitted. -/
theorem shiftedWord_popped (req : Req) (s : State) : shiftedWord req (popped s) = shiftedWord req s := by
  have helapsed : (popped s).elapsed (reqNow req) = s.elapsed (reqNow req) := rfl
  rw [shiftedWord, shiftedWord, helapsed]
  cases classify (s.elapsed (reqNow req)) <;> rfl

theorem edgeEmits_popped (req : Req) (s : State) : edgeEmits req (popped s) = edgeEmits req s := by
  have helapsed : (popped s).elapsed (reqNow req) = s.elapsed (reqNow req) := rfl
  rw [edgeEmits, edgeEmits, helapsed]
  cases classify (s.elapsed (reqNow req)) <;> rfl

/-- The ring and the results are the same: what a cycle does to the sub-block. -/
def sameBlock (s t : State) : Prop :=
  t.head = s.head ∧ t.tail = s.tail ∧ t.buf = s.buf ∧ t.returned = s.returned

/-- The second half of a cycle of the sub-block: an RB.PUSH, if there is one. -/
def pushedIf (push : Bool) (w : Word) (s : State) : State := if push then pushed w s else s

theorem runOps_rbPush_if (push : Bool) (w : Word) (s : State) :
    runOps (if push then [.rbPush w] else []) s = .next (pushedIf push w s) := by
  cases push
  · rfl
  · exact (runOps_singleton _ s).trans (exec_rbPush w s)

/-- The second half of a cycle of IRDEC, an EDGE if there is one, does to the sub-block what the request's push does. -/
theorem runOps_edge_if (edge : Bool) (req : Req) {s : State} (hlegal : s.bitsAccumulated.toNat < 16) :
    ∃ t, runOps (if edge then [.edge (req.setWidth 32)] else []) s = .next t ∧
      sameBlock t (pushedIf (edge && edgeEmits req s) (shiftedWord req s) s) ∧
      ((edge && edgeEmits req s) = true → t.inProgressWord = shiftedWord req s) := by
  cases edge with
  | false => exact ⟨s, rfl, ⟨rfl, rfl, rfl, rfl⟩, nofun⟩
  | true =>
    rw [if_pos rfl, runOps_singleton, Bool.true_and, edgeEmits_eq_storesWord hlegal]
    obtain ⟨b, hc, h15, he⟩ | ⟨b, hc, hlt, he⟩ | ⟨hc, he⟩ := edge_cases (req.setWidth 32) hlegal
    · have hstores : storesWord (.edge (req.setWidth 32)) s = true :=
        (storesWord_iff_of_setsEdge rfl s).2 ⟨h15, ne_of_eq_of_ne hc (dataSymbol_ne b)⟩
      rw [hstores, shiftedWord_of_data hc]
      exact ⟨_, he, ⟨rfl, rfl, rfl, rfl⟩, fun _ => rfl⟩
    · have hsilent : storesWord (.edge (req.setWidth 32)) s = false :=
        storesWord_eq_false_of_setsEdge rfl fun h15 => by omega
      rw [hsilent]
      exact ⟨_, he, ⟨rfl, rfl, rfl, rfl⟩, nofun⟩
    · have hsilent : storesWord (.edge (req.setWidth 32)) s = false := storesWord_eq_false_of_setsEdge rfl fun _ => hc
      rw [hsilent]
      exact ⟨_, he, ⟨rfl, rfl, rfl, rfl⟩, nofun⟩

/-! ### A cycle of IRDEC and the cycle of its RingBuffer (R86) -/

/-- A cycle of IRDEC without SETUP performs POP and then EDGE, as its bits ask. -/
theorem runCycle_top_commands {req : Req} (h34 : req.getLsbD 34 = false) (s : State) :
    runCycle (.top false false req) s =
      runOps ((if req.getLsbD 32 then [.pop] else []) ++
        (if req.getLsbD 33 then [.edge (req.setWidth 32)] else [])) s := by
  rw [runCycle_top, h34]
  cases req.getLsbD 32 <;> cases req.getLsbD 33
  · rfl
  · exact (runOps_singleton (.edge _) s).symm
  · exact (runOps_singleton .pop s).symm
  · rfl

/-- The sub-block's cycle without RB.INIT, on the request formed for it. -/
theorem runCycle_subRequest {req : Req} (h34 : req.getLsbD 34 = false) (s : State) :
    runCycle (.ringBuffer false false (subRequest false req s)) s =
      runOps ((if req.getLsbD 32 then [.rbPop] else []) ++
        (if req.getLsbD 33 && edgeEmits req s then [.rbPush (shiftedWord req s)] else [])) s := by
  have hpush : cyclePushes false req s = (req.getLsbD 33 && edgeEmits req s) := by
    rw [cyclePushes, show reqSetup req = false from h34]
    rfl
  rw [runCycle_ringBuffer_commands (by rw [subRequest_init, h34]; rfl), subRequest_pop, subRequest_push,
    subRequest_value, hpush]

/-- What the two cycles do side by side: both clear the buffer; or both meet a POP on an empty buffer; or both pop if bit 32
asks for it, and then the one performs the EDGE, the other the push formed for it. -/
theorem cycle_and_subRequest_cases {s : State} (rst : Bool) (req : Req) (hlegal : s.bitsAccumulated.toNat < 16) :
    ((subRequest rst req s).getLsbD 18 = true ∧ (subRequest rst req s).getLsbD 17 = false ∧
      ∃ t, runCycle (.top rst false req) s = .next t ∧
        runCycle (.ringBuffer rst false (subRequest rst req s)) s = .next (ringInit s) ∧
        sameBlock t (ringInit s)) ∨
    (runCycle (.top rst false req) s = .fault .popEmpty ∧
      runCycle (.ringBuffer rst false (subRequest rst req s)) s = .fault .popEmpty) ∨
    ((subRequest rst req s).getLsbD 18 = false ∧ ∃ u t, (u = s ∨ u = popped s) ∧
      runCycle (.top rst false req) s = .next t ∧
      runCycle (.ringBuffer rst false (subRequest rst req s)) s =
        .next (pushedIf ((subRequest rst req s).getLsbD 17) (shiftedWord req s) u) ∧
      sameBlock t (pushedIf ((subRequest rst req s).getLsbD 17) (shiftedWord req s) u) ∧
      ((subRequest rst req s).getLsbD 17 = true → t.inProgressWord = shiftedWord req s)) := by
  have hpush : (subRequest rst req s).getLsbD 17 = (!(rst || req.getLsbD 34) && (req.getLsbD 33 && edgeEmits req s)) := by
    rw [subRequest_push, Bool.not_or, ← Bool.and_assoc]
    rfl
  by_cases hinit : (rst || req.getLsbD 34) = true
  · refine .inl ⟨(subRequest_init rst req s).trans hinit, by rw [hpush, hinit]; rfl, ?_⟩
    rw [runCycle_top, if_pos hinit, runCycle_ringBuffer, subRequest_init, hinit, Bool.or_true, if_pos rfl]
    exact ⟨_, exec_setup s, exec_rbInit s, rfl, rfl, rfl, rfl⟩
  · obtain ⟨rfl, h34⟩ : rst = false ∧ req.getLsbD 34 = false := by simpa using hinit
    rw [hpush, h34, runCycle_top_commands h34, runCycle_subRequest h34, subRequest_init, h34]
    cases req.getLsbD 32 with
    | false =>
      obtain ⟨t, hrun, hblock, hword⟩ := runOps_edge_if (req.getLsbD 33) req hlegal
      exact .inr (.inr ⟨rfl, s, t, .inl rfl, hrun, runOps_rbPush_if _ _ s, hblock, hword⟩)
    | true =>
      by_cases he : s.head = s.tail
      · exact .inr (.inl ⟨runOps_cons_fault (exec_rbPop_empty he) _, runOps_cons_fault (exec_rbPop_empty he) _⟩)
      · obtain ⟨t, hrun, hblock, hword⟩ := runOps_edge_if (req.getLsbD 33) req (s := popped s) hlegal
        rw [shiftedWord_popped, edgeEmits_popped] at hblock hword
        exact .inr (.inr ⟨rfl, popped s, t, .inr rfl, (runOps_cons_next (exec_pop_nonempty he) _).trans hrun,
          (runOps_cons_next (exec_rbPop_nonempty he) _).trans (runOps_rbPush_if _ _ (popped s)), hblock, hword⟩)

/-- Settles O28: side by side, the two cycles complete together and leave the same ring and results. -/
theorem subBlockAgreesWithWrapper : Obligations.SubBlockAgreesWithWrapper := by
  intro s rst req hlegal
  obtain ⟨-, -, t, ht, hu, hblock⟩ | ⟨ht, hu⟩ | ⟨-, u, t, -, ht, hu, hblock, -⟩ :=
    cycle_and_subRequest_cases rst req hlegal <;> rw [ht, hu]
  · exact ⟨fun t' ht' => ⟨_, rfl, next_inj ht' ▸ hblock⟩, fun _ _ => ⟨t, rfl⟩⟩
  · exact ⟨nofun, nofun⟩
  · exact ⟨fun t' ht' => ⟨_, rfl, next_inj ht' ▸ hblock⟩, fun _ _ => ⟨t, rfl⟩⟩

/-! ### The request bit by bit (R50, R86) -/

/-- Among the operations of a cycle a command is one that the pins ask for. -/
theorem mem_cycleOps_iff {sampled idle i : Instr} (commands : List Instr) (hidle : i ≠ idle) :
    i ∈ cycleOps false sampled idle commands ↔ i ∈ commands := by
  cases commands with
  | nil => simp [cycleOps, hidle]
  | cons op ops => rfl

theorem setup_mem_decodeCycle_iff (rst : Bool) (req : Req) :
    .setup ∈ decodeCycle (.top rst false req) ↔ (rst || req.getLsbD 34) = true := by
  rw [decodeCycle, mem_cycleOps_iff _ (by decide), decodeReq_eq]
  cases rst <;> cases req.getLsbD 34 <;> cases req.getLsbD 32 <;> cases req.getLsbD 33 <;> simp

theorem edge_mem_decodeCycle_iff (rst : Bool) (req : Req) :
    .edge (req.setWidth 32) ∈ decodeCycle (.top rst false req) ↔
      (!(rst || req.getLsbD 34) && req.getLsbD 33) = true := by
  rw [decodeCycle, mem_cycleOps_iff _ (by simp), decodeReq_eq]
  cases rst <;> cases req.getLsbD 34 <;> cases req.getLsbD 32 <;> cases req.getLsbD 33 <;> simp

/-- `push` is 1 exactly when the cycle performs an EDGE that stores a word. -/
theorem subRequest_push_iff {s : State} (rst : Bool) (req : Req) (hlegal : s.bitsAccumulated.toNat < 16) :
    (subRequest rst req s).getLsbD 17 = true ↔
      .edge (req.setWidth 32) ∈ decodeCycle (.top rst false req) ∧
        storesWord (.edge (req.setWidth 32)) s = true := by
  rw [edge_mem_decodeCycle_iff, ← edgeEmits_eq_storesWord hlegal, ← Bool.and_eq_true, subRequest_push, Bool.not_or]
  rfl

/-- The two forms of the request ask for the same operations. -/
theorem decodeCycle_selectedSubRequest (rst sample : Bool) (req : Req) (s : State) :
    decodeCycle (.ringBuffer rst sample (selectedSubRequest rst req s)) =
      decodeCycle (.ringBuffer rst sample (subRequest rst req s)) := by
  cases rst with
  | true => rfl
  | false =>
    rw [decodeCycle, decodeCycle, selectedSubRequest, subRequest, decodeRbReq_rbReqWord, decodeRbReq_rbReqWord]
    cases reqSetup req <;> rfl

theorem setup_pattern_iff (req : Req) : req &&& 0x400000000 = 0x400000000 ↔ req.getLsbD 34 = true := by
  rw [req_and_of_commandMask (by decide)]
  cases req.getLsbD 34 <;> cases req.getLsbD 33 <;> cases req.getLsbD 32 <;> simp [reqWord]

theorem pop_pattern_iff (req : Req) :
    req &&& 0x500000000 = 0x100000000 ↔ (!req.getLsbD 34 && req.getLsbD 32) = true := by
  rw [req_and_of_commandMask (by decide)]
  cases req.getLsbD 34 <;> cases req.getLsbD 33 <;> cases req.getLsbD 32 <;> simp [reqWord]

/-- What a cycle of IRDEC stores: with `push` the request's value, at the old `head`; without it and `init`, nothing. -/
theorem runCycle_top_stores {s t : State} {rst : Bool} {req : Req} (hlegal : s.bitsAccumulated.toNat < 16)
    (h : runCycle (.top rst false req) s = .next t) :
    ((subRequest rst req s).getLsbD 17 = true →
      t.buf.read s.head.toNat = some ((subRequest rst req s).setWidth 16) ∧
      t.inProgressWord = (subRequest rst req s).setWidth 16 ∧ t.head = s.head + 1) ∧
    ((subRequest rst req s).getLsbD 17 = false → (subRequest rst req s).getLsbD 18 = false →
      t.buf = s.buf ∧ t.head = s.head) := by
  rw [subRequest_value]
  obtain ⟨h18, h17, -⟩ | ⟨ht, -⟩ | ⟨-, u, t', hu, ht, -, ⟨hhead, -, hbuf, -⟩, hword⟩ :=
    cycle_and_subRequest_cases rst req hlegal
  · rw [h18, h17]
    exact ⟨nofun, nofun⟩
  · cases ht.symm.trans h
  · obtain rfl := next_inj (ht.symm.trans h)
    have huhead : u.head = s.head := by obtain rfl | rfl := hu <;> rfl
    have hubuf : u.buf = s.buf := by obtain rfl | rfl := hu <;> rfl
    refine ⟨fun hpush => ?_, fun hpush _ => ?_⟩ <;> rw [hpush] at hhead hbuf
    · refine ⟨?_, hword hpush, ?_⟩
      · rw [← huhead, ← hbuf]
        exact Memory.read_write_same _ _ _
      · rw [← hhead, ← huhead]
        rfl
    · exact ⟨hbuf.symm.trans hubuf, hhead.symm.trans huhead⟩

/-- Settles O56, from the fields of each form of the request. -/
theorem subRequestFollowsTheCycle : Obligations.SubRequestFollowsTheCycle := by
  intro s rst req hlegal
  refine ⟨?_, subRequest_init rst req s, subRequest_push_iff rst req hlegal, subRequest_pop rst req s,
    fun t => runCycle_top_stores hlegal, ?_, ?_, ?_, ?_, fun sample => decodeCycle_selectedSubRequest rst sample req s⟩
  · rw [subRequest_init, setup_mem_decodeCycle_iff]
  · rw [selectedSubRequest_init, setup_pattern_iff]
  · rw [selectedSubRequest_push, subRequest_push]
  · rw [selectedSubRequest_pop, pop_pattern_iff]
  · rw [selectedSubRequest_value, subRequest_value]

end Sys2Proof.Machine
end
